-- ==== Sys2Proof/Word.lean ====
section
/-! DEFINITION. The values of the block (spec 00_scope.md rules R4, R6 and 20_memory.md rule R22): every value is an unsigned
natural number on a port of a stated width; a width is a parameter of the block, so a value is a `Nat` and its width a
predicate. -/

namespace Sys2Proof

/-- `v` is a value of a `width`-bit port: the requirement of `zext_N(v)` (00_scope.md rule R6). -/
abbrev Fits (width v : Nat) : Prop := v < 2 ^ width

end Sys2Proof
end

