-- ==== Sys2Proof/Config.lean ====
section
/-! DEFINITION. The implementation parameters of 00_scope.md rule R3, the default set P0, and the one free value
(`NEUTRAL_SEL`, 42_divcfg.md rule R76). -/

namespace Sys2Proof

/-- The open parameters of 00_scope.md rule R3. `SELW` and `BUSW` are derived (`Params.selw`, `Params.busw`). -/
structure Params where
  /-- `W`: the width in bits of a frequency operand. -/
  w : Nat
  /-- `S`: the number of fraction bits of the scaled ratio. -/
  s : Nat
  /-- `MAX_DIVIDER`: the largest selector. -/
  maxDivider : Nat
  /-- `NBUS`: the number of configured buses. -/
  nbus : Nat
  deriving DecidableEq, Repr

/-- The constraints of rule R3 that a natural number does not meet by itself. -/
abbrev Params.Valid (P : Params) : Prop := 1 ≤ P.w ∧ 1 ≤ P.nbus

namespace Config

/-- The default parameter set P0 (00_scope.md rule R3). PRESUMED: the spec takes `W`, `S` and `MAX_DIVIDER` of P0 from
general knowledge, log 1. Every statement is made for all parameters; only `State.reset`, the table's words and the test
vectors use P0. -/
def p0 : Params := { w := 32, s := 4, maxDivider := 7, nbus := 1 }

/-- The free value behind `NEUTRAL_SEL` (92_eei_decisions.md D23: OPEN, no default), log 9. It has no body: no proof can
see what it is. -/
opaque freeNeutralSel : Params → Nat

/-- `NEUTRAL_SEL`: the selector of the control register's neutral state, open within `[0, MAX_DIVIDER]`
(00_scope.md rule R3, 42_divcfg.md rule R76). -/
def neutralSel (P : Params) : Nat := min (freeNeutralSel P) P.maxDivider

end Config
end Sys2Proof
end

