-- ==== Sys2Proof/Syntax.lean ====
section
/-! DEFINITION. The operations of the block (one constructor per row of spec/opcode_table.json), the port bundles that
present them (30_encoding.md rule R35), and the lines of a program (30_encoding.md rules R36, R38). -/

namespace Sys2Proof

/-- The whole instruction set (30_encoding.md rule R39): the three operations and the selector codes of the table. -/
inductive Instr where
  /-- `DIVFREQ`: ports `sel`, `clk_in_hz` (40_divfreq.md rule R41). -/
  | divfreq (sel clkInHz : Nat)
  /-- `DIVSEL`: ports `clk_in_hz`, `req_hz` (41_divsel.md rule R50). -/
  | divsel (clkInHz reqHz : Nat)
  /-- `DIVCFG`: ports `clk_en`, `bus`, `clk_in_hz`, `req_hz` (42_divcfg.md rule R70). -/
  | divcfg (clkEn : Bool) (bus clkInHz reqHz : Nat)
  /-- Selector code 0 (30_encoding.md rule R30). -/
  | sel0
  /-- Selector code 1. -/
  | sel1
  /-- Selector code 2. -/
  | sel2
  /-- Selector code 3. -/
  | sel3
  /-- Selector code 4. -/
  | sel4
  /-- Selector code 5. -/
  | sel5
  /-- Selector code 6. -/
  | sel6
  /-- Selector code 7. -/
  | sel7
  deriving DecidableEq, Repr

/-- Which set of ports a bundle drives: "which operation is meant is decided by which ports are driven, not by bits"
(30_encoding.md rule R35). -/
inductive Format where
  /-- `F-FREQ`: the ports of `DIVFREQ`. -/
  | fFreq
  /-- `F-SEL`: the ports of `DIVSEL`. -/
  | fSel
  /-- `F-CFG`: the ports of `DIVCFG`. -/
  | fCfg
  /-- `SEL`: a selector code alone, on the `sel` port of `DIVFREQ` (log 4). -/
  | selCode
  /-- A number of bits that is no operation's bundle. -/
  | other (nbits : Nat)
  deriving DecidableEq, Repr

/-- One presentation of an operation: the ports driven and the concatenated value on them, most significant field first. -/
structure Bundle where
  format : Format
  bits : Nat
  deriving DecidableEq, Repr

/-- One line of a program (30_encoding.md rules R36, R38), or an event of the surroundings. -/
inductive Line where
  /-- One operation of the block. -/
  | bundle (b : Bundle)
  /-- `divact B, f`: `divsel B, f` giving `n`, then `divfreq B, n` (rule R38). -/
  | divact (clkInHz reqHz : Nat)
  /-- `acquire b, f`: the clock step of the driver's `acquire` (rule R38, 42_divcfg.md rule R75). -/
  | acquire (bus reqHz : Nat)
  /-- `release b`: ends the acquire window (42_divcfg.md rule R76). -/
  | release (bus : Nat)
  /-- Not an operation of the block: the clock/power collaborator now reports `hz` for the bus (10_state.md rule R17, log 17). -/
  | busClock (bus hz : Nat)
  deriving DecidableEq, Repr

end Sys2Proof
end

