-- ==== Sys2Proof/Machine/Operands.lean ====
section
/-! DEFINITION. The operand forms and the arithmetic of the block: the notation of 00_scope.md rule R6, the port widths of
rule R3, the division factor (40_divfreq.md rule R40), the scaled ratio and the selector (41_divsel.md rules R50 to R55).
All arithmetic is on natural numbers and nothing wraps (41_divsel.md rule R65, log 12). -/

namespace Sys2Proof

/-- `v[hi:lo]` (00_scope.md rule R6). -/
def slice (v hi lo : Nat) : Nat := v / 2 ^ lo % 2 ^ (hi - lo + 1)

/-- `msb(v)`: the index of the highest set bit, for `v ≥ 1` (00_scope.md rule R6). -/
def msb (v : Nat) : Nat := Nat.log2 v

/-- `is_pow2(v)`: `v ≥ 1` and `v & (v-1) = 0` (00_scope.md rule R6). -/
def isPow2 (v : Nat) : Bool := decide (1 ≤ v) && v &&& (v - 1) == 0

/-- The least `k ≥ 1` with `2^k > m` (00_scope.md rule R3, rows `SELW` and `BUSW`). -/
def portWidth (m : Nat) : Nat := Nat.log2 m + 1

/-- `SELW`: the width of a selector port. -/
def Params.selw (P : Params) : Nat := portWidth P.maxDivider

/-- `BUSW`: the width of a bus-index port, wide enough for one invalid index (30_encoding.md rule R34). -/
def Params.busw (P : Params) : Nat := portWidth P.nbus

/-- The width of a bundle of each format (30_encoding.md rule R35). A number of bits that is no operation's bundle has no
port at all. -/
def Format.width (P : Params) : Format → Nat
  | .fFreq => P.selw + P.w
  | .fSel => 2 * P.w
  | .fCfg => 1 + P.busw + 2 * P.w
  | .selCode => P.selw
  | .other _ => 0

/-- The division factor `2^(n+1)` of selector `n` (40_divfreq.md rule R40). -/
def factorOf (n : Nat) : Nat := 1 <<< (n + 1)

/-- The selector that encodes a division factor, where one does (30_encoding.md rule R30). -/
def selOfFactor (P : Params) (factor : Nat) : Option Nat :=
  if isPow2 factor = true ∧ 1 ≤ msb factor ∧ msb factor ≤ P.maxDivider + 1 then some (msb factor - 1) else none

/-- The fixed-point ratio `Q = (B << S) div (2·f)`, for `f ≠ 0` (41_divsel.md rule R51). -/
def ratioQ (P : Params) (clkInHz reqHz : Nat) : Nat := (clkInHz <<< P.s) / (2 * reqHz)

/-- The selector of a fixed-point ratio before the clamp: threshold (41_divsel.md rule R52), highest set bit (R53), round
up (R54). -/
def unclampedSel (P : Params) (q : Nat) : Nat :=
  if q ≤ 1 <<< P.s then 0 else if isPow2 q then msb q - P.s else msb q - P.s + 1

/-- The selector `DIVSEL` returns, for `f ≠ 0` (41_divsel.md rule R50): the clamp is applied last (R55). `DIVSEL` has no value
at `f = 0` (R58): the operations check the request before they evaluate this. -/
def selector (P : Params) (clkInHz reqHz : Nat) : Nat := min (unclampedSel P (ratioQ P clkInHz reqHz)) P.maxDivider

end Sys2Proof
end

