-- ==== Sys2Proof/Machine/Flags.lean ====
section
/-! DEFINITION. The block has no flags (10_state.md rule R19). What a flag would say is defined by the spec as predicates of the
inputs, for use in statements and never as outputs: `k*`, `Inexact`, `Clamped`, `Overshoot` (41_divsel.md rules R59, R60,
R64), the comparison of an output clock with a request (40_divfreq.md rule R43) and the safe domain (41_divsel.md rule R65). -/

namespace Sys2Proof

/-- The least `j` in `k, k+1, …, k+fuel` with `q ≤ 2^(s+j)` (`k + fuel` if there is none before it). -/
def leastFrom (s q : Nat) : Nat → Nat → Nat
  | 0, k => k
  | fuel + 1, k => if q ≤ 2 ^ (s + k) then k else leastFrom s q fuel (k + 1)

/-- `k*(B, f)`: the least `k` with `Q ≤ 2^(S+k)` (41_divsel.md rule R59). -/
def kStar (P : Params) (clkInHz reqHz : Nat) : Nat :=
  leastFrom P.s (ratioQ P clkInHz reqHz) (Nat.log2 (ratioQ P clkInHz reqHz) + 1) 0

/-- `Inexact(B, f)`: the scaled division leaves a remainder (41_divsel.md rule R60). -/
abbrev Inexact (P : Params) (clkInHz reqHz : Nat) : Prop := (clkInHz * 2 ^ P.s) % (2 * reqHz) ≠ 0

/-- `Clamped(B, f)`: the unclamped selector is above `MAX_DIVIDER` (41_divsel.md rule R60). -/
abbrev Clamped (P : Params) (clkInHz reqHz : Nat) : Prop := P.maxDivider < kStar P clkInHz reqHz

/-- The output clock of selector `n` exceeds the request, by cross-multiplication (40_divfreq.md rule R43). -/
abbrev Exceeds (clkInHz n reqHz : Nat) : Prop := reqHz * 2 ^ (n + 1) < clkInHz

/-- `Overshoot(B, f)`: the output clock of the returned selector exceeds the request (41_divsel.md rule R60). -/
abbrev Overshoot (P : Params) (clkInHz reqHz : Nat) : Prop := Exceeds clkInHz (selector P clkInHz reqHz) reqHz

/-- The safe domain (41_divsel.md rule R65). -/
abbrev SafeDomain (P : Params) (clkInHz reqHz : Nat) : Prop :=
  1 ≤ reqHz ∧ clkInHz < 2 ^ (P.w - P.s) ∧ reqHz < 2 ^ (P.w - 1)

/-- The selector of an implementation whose shifted numerator and doubled request wrap at `W` bits: NOT the block's, only what
41_divsel.md rule R65 compares it with. DESIGN CHOICE, log 23: where `2·f` wraps to 0 (`f = 2^(W-1)`) the division gives 0 and
the result is selector 0, while 93_implementation_defined.md U3 allows any value in `[0, MAX_DIVIDER]`. -/
def wrappingSelector (P : Params) (clkInHz reqHz : Nat) : Nat :=
  min (unclampedSel P (((clkInHz <<< P.s) % 2 ^ P.w) / ((2 * reqHz) % 2 ^ P.w))) P.maxDivider

end Sys2Proof
end

