-- ==== Sys2Proof/WellFormed.lean ====
section
/-! DEFINITION. What the ports can carry: an instruction, bundle or line whose operands fit their ports (30_encoding.md rules
R30, R32, R34, R35). Values that fit and that an operation refuses (a request of 0, a reserved selector code, a bus index not
configured, a disabled clock domain: rule R37) are well-formed: the operation itself raises their fault. -/

namespace Sys2Proof

/-- The operands fit the ports of the operation. A selector code's row exists when the `sel` port can carry it. -/
def Instr.wellFormed (P : Params) : Instr → Bool
  | .divfreq sel clkInHz => decide (Fits P.selw sel) && decide (Fits P.w clkInHz)
  | .divsel clkInHz reqHz => decide (Fits P.w clkInHz) && decide (Fits P.w reqHz)
  | .divcfg _ bus clkInHz reqHz => decide (Fits P.busw bus) && decide (Fits P.w clkInHz) && decide (Fits P.w reqHz)
  | .sel0 => decide (Fits P.selw 0)
  | .sel1 => decide (Fits P.selw 1)
  | .sel2 => decide (Fits P.selw 2)
  | .sel3 => decide (Fits P.selw 3)
  | .sel4 => decide (Fits P.selw 4)
  | .sel5 => decide (Fits P.selw 5)
  | .sel6 => decide (Fits P.selw 6)
  | .sel7 => decide (Fits P.selw 7)

/-- The bits fit the ports driven. -/
def Bundle.wellFormed (P : Params) (b : Bundle) : Bool :=
  decide (Fits (b.format.width P) b.bits) && match b.format with | .other _ => false | _ => true

/-- The frequency operands of a line are `W`-bit values (30_encoding.md rule R32). A bus index of a call is checked against
the configured set when the line runs (42_divcfg.md rule R77). -/
def Line.wellFormed (P : Params) : Line → Bool
  | .bundle b => b.wellFormed P
  | .divact clkInHz reqHz => decide (Fits P.w clkInHz) && decide (Fits P.w reqHz)
  | .acquire _ reqHz => decide (Fits P.w reqHz)
  | .release _ => true
  | .busClock _ hz => decide (Fits P.w hz)

end Sys2Proof
end

