-- ==== Sys2Proof/Decode.lean ====
section
/-! DEFINITION. From a port bundle to an instruction (total, rejecting by name) and back (30_encoding.md rules R30, R35). There
is no opcode: the ports driven say which operation is meant, and no bit of a bundle is fixed. -/

namespace Sys2Proof

/-- Why a bundle is no instruction. -/
inductive DecodeError where
  /-- The number of bits is no operation's bundle (30_encoding.md rule R35). -/
  | noOperation (nbits : Nat)
  /-- A bit is set above the ports of the format. -/
  | tooWide (format : Format) (bits : Nat)
  /-- A selector code the `sel` port carries and the table has no row for (a code above 7, `MAX_DIVIDER > 7`): `decodeOnPorts`
  gives it its meaning. -/
  | noRow (code : Nat)
  deriving DecidableEq, Repr

/-- What the decoder reads. -/
inductive Decoded where
  | instr (i : Instr)
  | error (e : DecodeError)
  deriving DecidableEq, Repr

/-- The instruction of a row `SEL.<n>` (30_encoding.md rule R30). -/
def decodeSelCode (code : Nat) : Decoded :=
  match code with
  | 0 => .instr .sel0
  | 1 => .instr .sel1
  | 2 => .instr .sel2
  | 3 => .instr .sel3
  | 4 => .instr .sel4
  | 5 => .instr .sel5
  | 6 => .instr .sel6
  | 7 => .instr .sel7
  | n => .error (.noRow n)

/-- The fields of a bundle that fits its ports, most significant field first (30_encoding.md rule R35). -/
def decodeFields (P : Params) (b : Bundle) : Decoded :=
  match b.format with
  | .fFreq => .instr (.divfreq (slice b.bits (P.w + P.selw - 1) P.w) (slice b.bits (P.w - 1) 0))
  | .fSel => .instr (.divsel (slice b.bits (2 * P.w - 1) P.w) (slice b.bits (P.w - 1) 0))
  | .fCfg =>
    .instr (.divcfg (slice b.bits (2 * P.w + P.busw) (2 * P.w + P.busw) == 1)
      (slice b.bits (2 * P.w + P.busw - 1) (2 * P.w)) (slice b.bits (2 * P.w - 1) P.w) (slice b.bits (P.w - 1) 0))
  | .selCode => decodeSelCode b.bits
  | .other nbits => .error (.noOperation nbits)

/-- The decoder: total, rejecting by name. -/
def decode (P : Params) (b : Bundle) : Decoded :=
  match b.format with
  | .other nbits => .error (.noOperation nbits)
  | _ => if Fits (b.format.width P) b.bits then decodeFields P b else .error (.tooWide b.format b.bits)

/-- The decoder on the ports as they stand: a selector code above the table's rows is presented to `DIVFREQ` with the bus
clock already on its `clk_in_hz` port, which is what a row `SEL.<n>` means (30_encoding.md rule R30: "for another
`MAX_DIVIDER` the table is … continued by the same law", log 5). -/
def decodeOnPorts (P : Params) (clkInHz : Nat) (b : Bundle) : Decoded :=
  match decode P b with
  | .error (.noRow n) => .instr (.divfreq n clkInHz)
  | r => r

/-- The bundle that presents an instruction (30_encoding.md rule R35: concatenation, most significant field first). -/
def encode (P : Params) : Instr → Bundle
  | .divfreq sel clkInHz => ⟨.fFreq, sel * 2 ^ P.w + clkInHz⟩
  | .divsel clkInHz reqHz => ⟨.fSel, clkInHz * 2 ^ P.w + reqHz⟩
  | .divcfg clkEn bus clkInHz reqHz =>
    ⟨.fCfg, ((clkEn.toNat * 2 ^ P.busw + bus) * 2 ^ P.w + clkInHz) * 2 ^ P.w + reqHz⟩
  | .sel0 => ⟨.selCode, 0⟩
  | .sel1 => ⟨.selCode, 1⟩
  | .sel2 => ⟨.selCode, 2⟩
  | .sel3 => ⟨.selCode, 3⟩
  | .sel4 => ⟨.selCode, 4⟩
  | .sel5 => ⟨.selCode, 5⟩
  | .sel6 => ⟨.selCode, 6⟩
  | .sel7 => ⟨.selCode, 7⟩

/-- The ports a row of spec/opcode_table.json drives, from its number of bits under P0, as the table gives it or rounded up to
whole bytes (log 6): 3 for a selector code, 35 for `DIVFREQ`, 64 for `DIVSEL`, 66 for `DIVCFG`. -/
def tableFormat (nbits : Nat) : Format :=
  match nbits with
  | 3 => .selCode
  | 8 => .selCode
  | 35 => .fFreq
  | 40 => .fFreq
  | 64 => .fSel
  | 66 => .fCfg
  | 72 => .fCfg
  | n => .other n

/-- A row's word as a bundle. -/
def tableBundle (nbits w : Nat) : Bundle := ⟨tableFormat nbits, w⟩

/-- The instruction the decoder reads from a row's word of the table (which is the table of P0). -/
def decodeTableWord (nbits w : Nat) : Option Instr :=
  match decode Config.p0 (tableBundle nbits w) with
  | .instr i => some i
  | .error _ => none

end Sys2Proof
end

