-- ==== Sys2Proof/Machine/State.lean ====
section
/-! DEFINITION. The state of the machine as plain data (10_state.md), the ways it can stop (60_exceptions.md rule R80), and the
state after system initialization (10_state.md rule R18, 70_reset_and_hazards.md rule R95). -/

namespace Sys2Proof.Machine

/-- The Bus Runtime State of one bus, the block's only state (10_state.md rule R11). -/
structure BusRecord where
  /-- `st.cached_clock_hz[b]`, `W` bits: the last request; 0 means "unset". -/
  cachedClockHz : Nat
  /-- `st.cached_divider[b]`, `SELW` bits: the selector matching it. -/
  cachedDivider : Nat
  deriving DecidableEq, Repr

/-- The acquire/release state of a bus (00_scope.md glossary, 42_divcfg.md rule R76). -/
inductive Window where
  /-- Not acquired: the clock domain is disabled. -/
  | idle
  /-- Inside an acquire/release window: the clock domain is enabled. -/
  | acquired
  deriving DecidableEq, Repr

/-- What the model holds for one bus: its record, and the surroundings that 10_state.md rules R16 and R18 let a model hold. -/
structure Bus where
  /-- The block's own state. -/
  record : BusRecord
  /-- Whether the bus is inside an acquire/release window (10_state.md rule R18, 42_divcfg.md rule R76). -/
  window : Window
  /-- The selector in the peripheral's control register (10_state.md rule R16, 42_divcfg.md rules R75, R76; log 8). -/
  programmedSel : Nat
  /-- Input: the bus clock the clock/power collaborator now reports (10_state.md rule R17, log 17). -/
  clockHz : Nat
  deriving DecidableEq, Repr

/-- The ports of `DIVFREQ` (30_encoding.md rule R35). -/
structure FreqPorts where
  sel : Nat
  clkInHz : Nat
  factor : Nat
  clkOutHz : Nat
  clkOutRem : Nat
  deriving DecidableEq, Repr

/-- The ports of `DIVSEL` (30_encoding.md rule R35): two inputs, the output `sel`. -/
structure SelPorts where
  clkInHz : Nat
  reqHz : Nat
  sel : Nat
  deriving DecidableEq, Repr

/-- The ports of `DIVCFG` (30_encoding.md rule R35): four inputs, the output `sel`. -/
structure CfgPorts where
  clkEn : Bool
  bus : Nat
  clkInHz : Nat
  reqHz : Nat
  sel : Nat
  deriving DecidableEq, Repr

/-- The machine. `NBUS` is the number of buses: "the array of records has exactly `NBUS` elements" (20_memory.md rule R28). -/
structure State where
  /-- The parameter `W` (00_scope.md rule R3; configuration, changed by no step, log 1). -/
  width : Nat
  /-- The parameter `S`. -/
  shift : Nat
  /-- The parameter `MAX_DIVIDER`. -/
  maxDivider : Nat
  /-- One entry per bus index `0 .. NBUS-1`. -/
  buses : List Bus
  /-- The ports of `DIVFREQ`: inputs as last driven, outputs as last returned (log 3). -/
  freq : FreqPorts
  /-- The ports of `DIVSEL`. -/
  sel : SelPorts
  /-- The ports of `DIVCFG`. -/
  cfg : CfgPorts
  /-- The lines still to be presented, oldest first: the model's own (10_state.md rule R15, log 7). -/
  pending : List Line
  deriving DecidableEq, Repr

/-- The parameters of rule R3 that a state has. -/
def State.params (s : State) : Params :=
  { w := s.width, s := s.shift, maxDivider := s.maxDivider, nbus := s.buses.length }

/-- The faults of the block, all of them and with no numeric code (60_exceptions.md rule R80). A fault is never final and is
cleared by no later step (rule R87); the raising operation writes nothing. -/
inductive Fault where
  /-- Raised by `DIVCFG` (and by the calls `acquire`, `release` and the event `busClock`) for an index `≥ NBUS`: the document's
  fatal contract violation (60_exceptions.md rule R82). Safe: the reference behaviour terminates. -/
  | busIndex (bus : Nat)
  /-- Raised by `DIVCFG` with `clk_en = 0` (rule R85). Safe: the spec refuses what the document leaves open. -/
  | clockDomainOff (bus : Nat)
  /-- Raised by `DIVSEL` and `DIVCFG` for a request of 0 (rule R83). Safe: the spec refuses what the document leaves open. -/
  | zeroRequest
  /-- Raised by `DIVFREQ` and the selector codes for a code above `MAX_DIVIDER` (rule R84). Safe, likewise. -/
  | selectorRange (sel : Nat)
  deriving DecidableEq, Repr

/-- Why a line has no meaning in the model. No instruction of the table that reached `exec` is refused. -/
inductive Refusal where
  /-- Raised by an arm of `exec` whose instruction has no meaning yet: none. Safe. -/
  | notModelled (mnemonic : String)
  /-- Raised by `step` for a bundle that drives no operation's ports or does not fit them (30_encoding.md rule R35). Safe: no
  hardware can be given it. -/
  | undecodable (e : DecodeError)
  /-- Raised by `step` for a call or event whose frequency is no `W`-bit value (30_encoding.md rule R32, log 11). Safe: no port
  can carry it. -/
  | operandTooWide (line : Line)
  /-- Raised by `acquire` on a bus inside a window: reprogramming the selector there is "undefined" and refused by
  70_reset_and_hazards.md rule R99 and 93_implementation_defined.md U4 (log 10). Safe: the lock rules it out. -/
  | reprogramInsideWindow (bus : Nat)
  deriving DecidableEq, Repr

/-- A bus at system initialization: "unset", Idle, clock domain disabled (10_state.md rule R18). `cachedDivider` has no value in
the spec: DESIGN CHOICE 0, log 2. `programmedSel` and `clockHz` are not in the source: DESIGN CHOICE 0, logs 8 and 17. -/
def Bus.reset : Bus :=
  { record := { cachedClockHz := 0, cachedDivider := 0 }, window := .idle, programmedSel := 0, clockHz := 0 }

/-- System initialization of a block with the parameters `P`. The ports: DESIGN CHOICE, log 3 (inputs 0, and the outputs
`DIVFREQ` gives for them). Nothing is pending: DESIGN CHOICE, log 7. -/
def State.resetFor (P : Params) : State :=
  { width := P.w
    shift := P.s
    maxDivider := P.maxDivider
    buses := List.replicate P.nbus Bus.reset
    freq := { sel := 0, clkInHz := 0, factor := 2, clkOutHz := 0, clkOutRem := 0 }
    sel := { clkInHz := 0, reqHz := 0, sel := 0 }
    cfg := { clkEn := false, bus := 0, clkInHz := 0, reqHz := 0, sel := 0 }
    pending := [] }

/-- The machine right after reset, under the spec's default parameter set P0 (00_scope.md rule R3, log 1). -/
def State.reset : State := State.resetFor Config.p0

end Sys2Proof.Machine
end

