-- ==== Sys2Proof/Machine/Ops.lean ====
section
/-! DEFINITION. The named operations over the state: raising a fault (60_exceptions.md rule R87), driving `DIVFREQ`'s ports
(40_divfreq.md rules R41, R42), reading and writing a bus (20_memory.md rules R21, R24). -/

namespace Sys2Proof.Machine

/-- The three outcomes of a step of this machine. -/
abbrev Result := Host.Outcome State Fault Refusal

/-- Fault entry, the one shared operation (60_exceptions.md rule R87): no handler, no vector, no saved state, no mode change;
the operation returns no result and writes no state, and the outcome is terminal. There is no return from a fault (R89). -/
def raise (f : Fault) : Result := .fault f

/-- `require c else raise f` (00_scope.md rule R7). -/
def require (c : Bool) (f : Fault) (k : Result) : Result := if c then k else raise f

/-- Change one bus of the array and no other (20_memory.md rules R21, R24). -/
def State.modifyBus (b : Nat) (f : Bus → Bus) (s : State) : State := { s with buses := s.buses.modify b f }

/-- Drive the ports of `DIVFREQ`. -/
def State.setFreq (p : FreqPorts) (s : State) : State := { s with freq := p }

/-- Drive the ports of `DIVSEL`. -/
def State.setSel (p : SelPorts) (s : State) : State := { s with sel := p }

/-- Drive the ports of `DIVCFG`. -/
def State.setCfg (p : CfgPorts) (s : State) : State := { s with cfg := p }

/-- Replace the lines still to be presented. -/
def State.setPending (ls : List Line) (s : State) : State := { s with pending := ls }

/-- The ports of `DIVFREQ` with selector `n` and input clock `B` on them (40_divfreq.md rules R40 to R42): the factor
`1 << (n+1)`, the floor `B >> (n+1)` and the remainder `B[n:0]`. -/
def FreqPorts.of (n clkInHz : Nat) : FreqPorts :=
  { sel := n
    clkInHz := clkInHz
    factor := factorOf n
    clkOutHz := clkInHz >>> (n + 1)
    clkOutRem := slice clkInHz n 0 }

/-- Evaluate the divider on selector `n` and input clock `B` (40_divfreq.md rule R41): a selector above `MAX_DIVIDER` raises
`SelectorRange` (rule R44). -/
def evalFreq (n clkInHz : Nat) (s : State) : Result :=
  require (decide (n ≤ s.maxDivider)) (.selectorRange n) (.next (s.setFreq (FreqPorts.of n clkInHz)))

/-- Put a selector code alone on `DIVFREQ`'s `sel` port, its `clk_in_hz` port keeping the value it has: the outputs are a
function of the present inputs (70_reset_and_hazards.md rule R104, log 4). -/
def driveSelCode (n : Nat) (s : State) : Result := evalFreq n s.freq.clkInHz s

/-- The record after a `DIVCFG` with request `f` at bus clock `B` (42_divcfg.md rule R70): on a miss both fields are written
together, on a hit neither. -/
def BusRecord.lookup (P : Params) (clkInHz reqHz : Nat) (r : BusRecord) : BusRecord :=
  if reqHz ≠ r.cachedClockHz then { cachedClockHz := reqHz, cachedDivider := selector P clkInHz reqHz } else r

/-- A bus after a `DIVCFG` on it: only its record can change. -/
def Bus.lookup (P : Params) (clkInHz reqHz : Nat) (bus : Bus) : Bus :=
  { bus with record := bus.record.lookup P clkInHz reqHz }

/-- The selector the peripheral's divider runs with, where it runs: while a bus is acquired, its output clock is
`DIVFREQ(B, n)` for the bus clock then present (42_divcfg.md rule R75); after `release` no output clock is produced (R76). -/
def Bus.output (bus : Bus) : Option FreqPorts :=
  match bus.window with
  | .acquired => some (FreqPorts.of bus.programmedSel bus.clockHz)
  | .idle => none

end Sys2Proof.Machine
end

