-- ==== Sys2Proof/Machine/Divcfg.lean ====
section
/-! DEFINITION. `DIVCFG`, the cached selector lookup of `acquire` (42_divcfg.md). -/

namespace Sys2Proof.Machine

/-- `DIVCFG b, B, f, en` (42_divcfg.md rule R70): the three checks in the order of 60_exceptions.md rule R86, then the
lookup. An index with no record is an index `≥ NBUS` (20_memory.md rule R28). -/
def execDivcfg (clkEn : Bool) (bus clkInHz reqHz : Nat) (s : State) : Result :=
  match s.buses[bus]? with
  | none => raise (.busIndex bus)
  | some old =>
    require clkEn (.clockDomainOff bus) (require (decide (reqHz ≠ 0)) .zeroRequest
      (.next ((s.modifyBus bus (Bus.lookup s.params clkInHz reqHz)).setCfg
        { clkEn := clkEn
          bus := bus
          clkInHz := clkInHz
          reqHz := reqHz
          sel := (old.record.lookup s.params clkInHz reqHz).cachedDivider })))

end Sys2Proof.Machine
end

