-- ==== Sys2Proof/Machine/Divfreq.lean ====
section
/-! DEFINITION. `DIVFREQ` (40_divfreq.md) and the selector codes of the table (30_encoding.md rule R30). -/

namespace Sys2Proof.Machine

/-- `DIVFREQ B, n` (40_divfreq.md rule R41). -/
def execDivfreq (sel clkInHz : Nat) (s : State) : Result := evalFreq sel clkInHz s

/-- Selector code 0: factor 2, output `B/2` (30_encoding.md rule R30, log 4). -/
def execSel0 (s : State) : Result := driveSelCode 0 s

/-- Selector code 1: factor 4, output `B/4`. -/
def execSel1 (s : State) : Result := driveSelCode 1 s

/-- Selector code 2: factor 8, output `B/8`. -/
def execSel2 (s : State) : Result := driveSelCode 2 s

/-- Selector code 3: factor 16, output `B/16`. -/
def execSel3 (s : State) : Result := driveSelCode 3 s

/-- Selector code 4: factor 32, output `B/32`. -/
def execSel4 (s : State) : Result := driveSelCode 4 s

/-- Selector code 5: factor 64, output `B/64`. -/
def execSel5 (s : State) : Result := driveSelCode 5 s

/-- Selector code 6: factor 128, output `B/128`. -/
def execSel6 (s : State) : Result := driveSelCode 6 s

/-- Selector code 7: factor 256, output `B/256`. -/
def execSel7 (s : State) : Result := driveSelCode 7 s

end Sys2Proof.Machine
end

