-- ==== Sys2Proof/Machine/Divsel.lean ====
section
/-! DEFINITION. `DIVSEL`, the Clock Divider Calculator (41_divsel.md). -/

namespace Sys2Proof.Machine

/-- `DIVSEL B, f` (41_divsel.md rule R50): a request of 0 raises `ZeroRequest` (R58); otherwise the selector is on the output
port. No state of a bus is read or written (10_state.md rule R10). -/
def execDivsel (clkInHz reqHz : Nat) (s : State) : Result :=
  require (decide (reqHz ≠ 0)) .zeroRequest
    (.next (s.setSel { clkInHz := clkInHz, reqHz := reqHz, sel := selector s.params clkInHz reqHz }))

end Sys2Proof.Machine
end

