-- ==== Sys2Proof/Machine/Dispatch.lean ====
section
/-! DEFINITION. The meaning of every instruction of the table, one arm per constructor. -/

namespace Sys2Proof.Machine

open Host

def exec (i : Instr) (s : State) : Host.Outcome State Fault Refusal :=
  match i with
  | .divfreq sel clkInHz => Sys2Proof.Machine.execDivfreq sel clkInHz s
  | .divsel clkInHz reqHz => Sys2Proof.Machine.execDivsel clkInHz reqHz s
  | .divcfg clkEn bus clkInHz reqHz => Sys2Proof.Machine.execDivcfg clkEn bus clkInHz reqHz s
  | .sel0 => Sys2Proof.Machine.execSel0 s
  | .sel1 => Sys2Proof.Machine.execSel1 s
  | .sel2 => Sys2Proof.Machine.execSel2 s
  | .sel3 => Sys2Proof.Machine.execSel3 s
  | .sel4 => Sys2Proof.Machine.execSel4 s
  | .sel5 => Sys2Proof.Machine.execSel5 s
  | .sel6 => Sys2Proof.Machine.execSel6 s
  | .sel7 => Sys2Proof.Machine.execSel7 s

end Sys2Proof.Machine
end

