-- ==== Sys2Proof/Machine/Window.lean ====
section
/-! DEFINITION. The pseudo-operations and the acquire/release window around the block (30_encoding.md rule R38, 42_divcfg.md
rules R75, R76), and the event by which a new bus clock is reported (10_state.md rule R17). The lock is outside the block: a
line stands in the order in which the lock lets it take effect (20_memory.md rule R25, log 14). -/

namespace Sys2Proof.Machine

/-- `divact B, f`, the "computed actual clock": `divsel B, f` giving `n`, then `divfreq B, n` (30_encoding.md rule R38). -/
def runDivact (clkInHz reqHz : Nat) (s : State) : Result :=
  match execDivsel clkInHz reqHz s with
  | .next t => execDivfreq t.sel.sel clkInHz t
  | r => r

/-- Write the surroundings of one bus after its `DIVCFG` returned `n`: the domain is enabled and `n` is programmed. -/
def Bus.program (n : Nat) (bus : Bus) : Bus := { bus with window := .acquired, programmedSel := n }

/-- `release` of one bus: peripheral disabled and its control register neutral, clock domain disabled, the cache untouched
(42_divcfg.md rule R76). The neutral selector is a free value (log 9). -/
def Bus.release (P : Params) (bus : Bus) : Bus :=
  { bus with window := .idle, programmedSel := Config.neutralSel P }

/-- The bus clock reported for one bus. -/
def Bus.report (hz : Nat) (bus : Bus) : Bus := { bus with clockHz := hz }

/-- `acquire b, f` (30_encoding.md rule R38): `divcfg b, B_b, f, 1` with the bus clock reported for `b`, whose result is
programmed into the control register (42_divcfg.md rule R75). Inside an open window it would reprogram the selector, to which
70_reset_and_hazards.md rule R99 gives no meaning (log 10). -/
def runAcquire (bus reqHz : Nat) (s : State) : Result :=
  match s.buses[bus]? with
  | none => raise (.busIndex bus)
  | some old =>
    match old.window with
    | .acquired => .refused (.reprogramInsideWindow bus)
    | .idle =>
      match execDivcfg true bus old.clockHz reqHz s with
      | .next t => .next (t.modifyBus bus (Bus.program t.cfg.sel))
      | r => r

/-- `release b`: ends the window of the bus (42_divcfg.md rule R76); the block cannot detect a doubled one
(70_reset_and_hazards.md rule R98). An index outside the configured set is fatal (60_exceptions.md rule R82). -/
def runRelease (bus : Nat) (s : State) : Result :=
  match s.buses[bus]? with
  | none => raise (.busIndex bus)
  | some _ => .next (s.modifyBus bus (Bus.release s.params))

/-- The collaborator reports a bus clock (10_state.md rule R17): an input changes, no operation of the block runs (log 17). -/
def runBusClock (bus hz : Nat) (s : State) : Result :=
  match s.buses[bus]? with
  | none => raise (.busIndex bus)
  | some _ => .next (s.modifyBus bus (Bus.report hz))

end Sys2Proof.Machine
end

