-- ==== Sys2Proof/Machine/Fetch.lean ====
section
/-! DEFINITION. Presenting a line of a program to the block. The block has no program counter and fetches nothing (10_state.md
rule R15): the lines of a program are a list of the model's own, executed in order (30_encoding.md rule R36, log 7). -/

namespace Sys2Proof.Machine

/-- Present a bundle: the instruction the ports driven stand for, or a rejection by name. -/
def runBundle (b : Bundle) (s : State) : Result :=
  match decodeOnPorts s.params s.freq.clkInHz b with
  | .instr i => exec i s
  | .error e => .refused (.undecodable e)

/-- Run a call of the driver or an event of the surroundings, whose frequencies must be `W`-bit values (log 11). -/
def runCall (l : Line) (s : State) (k : Result) : Result :=
  if l.wellFormed s.params then k else .refused (.operandTooWide l)

/-- Run one line. -/
def runLine (l : Line) (s : State) : Result :=
  match l with
  | .bundle b => runBundle b s
  | .divact clkInHz reqHz => runCall l s (runDivact clkInHz reqHz s)
  | .acquire bus reqHz => runCall l s (runAcquire bus reqHz s)
  | .release bus => runCall l s (runRelease bus s)
  | .busClock bus hz => runCall l s (runBusClock bus hz s)

/-- Put a row's word of the table where `step` takes its next line. -/
def State.present (nbits w : Nat) (s : State) : State := s.setPending (.bundle (tableBundle nbits w) :: s.pending)

end Sys2Proof.Machine
end

