-- ==== Sys2Proof/Safety.lean ====
section
/-! DEFINITION. What a safe state and a safe run are, in the terms the statements use: the invariant of the machine
(10_state.md rules R11, R12), runs of operations (30_encoding.md rule R36), the rational output clock (40_divfreq.md rule R42),
and what an "unset" record may hide (10_state.md rule R18). -/

namespace Sys2Proof.Machine

/-- The exact output frequency of selector `n`, a rational number of hertz (40_divfreq.md rules R41, R42). -/
def outputHz (clkInHz n : Nat) : ℚ := (clkInHz : ℚ) / 2 ^ (n + 1)

/-- The exact output frequency the ports of `DIVFREQ` carry: `clk_out_hz + clk_out_rem / factor` (40_divfreq.md rule R42). -/
def FreqPorts.outputHz (p : FreqPorts) : ℚ := (p.clkOutHz : ℚ) + (p.clkOutRem : ℚ) / (p.factor : ℚ)

/-- The ratio `B / (2·f)` the calculator approximates (41_divsel.md rule R51). -/
def exactRatio (clkInHz reqHz : Nat) : ℚ := (clkInHz : ℚ) / (2 * reqHz)

/-- The record of a bus. -/
def State.recordOf (s : State) (b : Nat) : Option BusRecord := (s.buses[b]?).map Bus.record

/-- The number of configured buses. -/
def State.nbus (s : State) : Nat := s.buses.length

/-- A record fits its fields, and where it is set its selector is `DIVSEL` of the cached request at some bus clock
(10_state.md rules R11, R12). -/
structure RecordOk (P : Params) (r : BusRecord) : Prop where
  requestFits : Fits P.w r.cachedClockHz
  dividerFits : Fits P.selw r.cachedDivider
  coherent : r.cachedClockHz ≠ 0 → ∃ clkInHz, Fits P.w clkInHz ∧ r.cachedDivider = selector P clkInHz r.cachedClockHz

/-- A bus: its record, a programmed selector in `[0, MAX_DIVIDER]`, a reported clock that fits. -/
structure BusOk (P : Params) (bus : Bus) : Prop where
  record : RecordOk P bus.record
  programmed : bus.programmedSel ≤ P.maxDivider
  clockFits : Fits P.w bus.clockHz

/-- `DIVFREQ`'s outputs are the function of its present inputs (40_divfreq.md rule R47, 70_reset_and_hazards.md rule R104). -/
structure FreqOk (P : Params) (p : FreqPorts) : Prop where
  inRange : p.sel ≤ P.maxDivider
  clockFits : Fits P.w p.clkInHz
  outputs : p = FreqPorts.of p.sel p.clkInHz

/-- `DIVSEL`'s output is the function of its present inputs, where the request is one `DIVSEL` has a value at. -/
structure SelOk (P : Params) (p : SelPorts) : Prop where
  clockFits : Fits P.w p.clkInHz
  requestFits : Fits P.w p.reqHz
  output : p.reqHz ≠ 0 → p.sel = selector P p.clkInHz p.reqHz

/-- After a `DIVCFG` its bus holds the request and the returned selector (42_divcfg.md rule R71), and keeps them until the next
`DIVCFG`. -/
def CfgOk (s : State) : Prop :=
  s.cfg.reqHz ≠ 0 → s.recordOf s.cfg.bus = some { cachedClockHz := s.cfg.reqHz, cachedDivider := s.cfg.sel }

/-- The invariant of the machine. -/
structure State.Inv (s : State) : Prop where
  params : s.params.Valid
  buses : ∀ bus ∈ s.buses, BusOk s.params bus
  freq : FreqOk s.params s.freq
  sel : SelOk s.params s.sel
  cfg : CfgOk s

/-- Operations executed in order, each to completion; a fault ends the run (30_encoding.md rule R36, 60_exceptions.md R87). -/
def runInstrs : List Instr → State → Result
  | [], s => .next s
  | i :: is, s =>
    match exec i s with
    | .next t => runInstrs is t
    | r => r

/-- `n` steps of the machine, ended by a fault or a refusal. -/
def runSteps : Nat → State → Result
  | 0, s => .next s
  | n + 1, s =>
    match step s with
    | .next t => runSteps n t
    | r => r

/-- The ports an operation drives (30_encoding.md rule R35): a selector code drives those of `DIVFREQ` (log 4). -/
def portsDriven : Instr → Format
  | .divsel _ _ => .fSel
  | .divcfg _ _ _ _ => .fCfg
  | .divfreq _ _ | .sel0 | .sel1 | .sel2 | .sel3 | .sel4 | .sel5 | .sel6 | .sel7 => .fFreq

/-- Whether an operation names bus `b`. -/
def onBus (b : Nat) : Instr → Bool
  | .divcfg _ bus _ _ => bus == b
  | _ => false

/-- `r` was written on bus `b` by a missing `DIVCFG` of the run, and every later `DIVCFG` of the run on `b` requested the same
clock (10_state.md rules R12, R13). -/
def LastMiss (b : Nat) (is : List Instr) (s : State) (r : BusRecord) : Prop :=
  ∃ pre clkInHz reqHz post u r₀,
    is = pre ++ .divcfg true b clkInHz reqHz :: post ∧ runInstrs pre s = .next u ∧ u.recordOf b = some r₀ ∧
      r₀.cachedClockHz ≠ reqHz ∧ r = { cachedClockHz := reqHz, cachedDivider := selector s.params clkInHz reqHz } ∧
      ∀ en clkInHz' reqHz', Instr.divcfg en b clkInHz' reqHz' ∈ post → reqHz' = reqHz

/-- The bus clock that was supplied to the `DIVCFG` that last wrote each record, after one more operation from `s`
(10_state.md rule R12, `B_b`): a ghost of the statements, no state. -/
def missClock (hz : Nat → Nat) (i : Instr) (s : State) : Nat → Nat :=
  match i with
  | .divcfg _ bus clkInHz reqHz => fun b =>
    if b = bus ∧ ∀ r, s.recordOf b = some r → r.cachedClockHz ≠ reqHz then clkInHz else hz b
  | _ => hz

/-- Bus, bus clock and request of the `DIVCFG` that the next step presents: as a bundle, or as the clock step of `acquire` at the
reported bus clock (30_encoding.md rule R38). -/
def lookupPresented (s : State) : Option (Nat × Nat × Nat) :=
  match s.pending with
  | .bundle bits :: _ =>
    match decode s.params bits with
    | .instr (.divcfg _ bus clkInHz reqHz) => some (bus, clkInHz, reqHz)
    | _ => none
  | .acquire bus reqHz :: _ => (s.buses[bus]?).map fun old => (bus, old.clockHz, reqHz)
  | _ => none

/-- `missClock` after one more step of the machine from `s`. -/
def stepMissClock (hz : Nat → Nat) (s : State) : Nat → Nat :=
  match lookupPresented s with
  | some (bus, clkInHz, reqHz) => missClock hz (.divcfg true bus clkInHz reqHz) s
  | none => hz

/-- Rule R12 of 10_state.md: where a record is set, its selector is `DIVSEL` of the cached request at the clock `hz b`. -/
def CacheValid (hz : Nat → Nat) (s : State) : Prop :=
  ∀ b r, s.recordOf b = some r → r.cachedClockHz ≠ 0 → r.cachedDivider = selector s.params (hz b) r.cachedClockHz

/-- Two buses that differ at most in the selector of an unset record. -/
structure SameButUnset (a b : Bus) : Prop where
  request : a.record.cachedClockHz = b.record.cachedClockHz
  divider : a.record.cachedClockHz ≠ 0 → a.record.cachedDivider = b.record.cachedDivider
  window : a.window = b.window
  programmed : a.programmedSel = b.programmedSel
  clock : a.clockHz = b.clockHz

/-- Two states that differ at most in the selectors of unset records: the value `cached_divider` has before its first write
(10_state.md rule R18). -/
structure State.AlikeButUnset (s t : State) : Prop where
  width : s.width = t.width
  shift : s.shift = t.shift
  maxDivider : s.maxDivider = t.maxDivider
  buses : List.Forall₂ SameButUnset s.buses t.buses
  freq : s.freq = t.freq
  sel : s.sel = t.sel
  cfg : s.cfg = t.cfg
  pending : s.pending = t.pending

/-- The same outcome, up to the selectors of unset records. -/
def AlikeOutcomes : Result → Result → Prop
  | .next s, .next t => s.AlikeButUnset t
  | .fault f, .fault g => f = g
  | .refused r, .refused q => r = q
  | _, _ => False

end Sys2Proof.Machine
end

