-- ==== Sys2Proof/Certificates/Slice0/Obligations.lean ====
section
/-! DEFINITION. The statements about the machine, made for every parameter set (00_scope.md rule R3): a state carries its
parameters, so "for every state" is also "for every `W`, `S`, `MAX_DIVIDER`, `NBUS`". -/

open Sys2Proof Sys2Proof.Machine

/-! ### Encoding -/

/-- Port widths (00_scope.md section 4, 30_encoding.md section 2): `SELW` is the least width of at least one bit that holds every
selector, `BUSW` the least that holds every index and one invalid one. -/
def Obligations.PortWidthsAreLeast : Prop :=
  ∀ P : Params,
    (1 ≤ P.selw ∧ P.maxDivider < 2 ^ P.selw ∧ ∀ k, 1 ≤ k → P.maxDivider < 2 ^ k → P.selw ≤ k) ∧
    (1 ≤ P.busw ∧ P.nbus < 2 ^ P.busw ∧ ∀ k, 1 ≤ k → P.nbus < 2 ^ k → P.busw ≤ k)

/-- The notation of 00_scope.md section 5: `msb` is the index of the highest set bit, `is_pow2` says "a power of two", a slice
is the field between two bits. -/
def Obligations.NotationMeansWhatItSays : Prop :=
  (∀ v k, 1 ≤ v → (msb v = k ↔ 2 ^ k ≤ v ∧ v < 2 ^ (k + 1))) ∧
  (∀ v, isPow2 v = true ↔ ∃ k, v = 2 ^ k) ∧
  (∀ v hi lo i, lo ≤ hi → (slice v hi lo).testBit i = (decide (lo + i ≤ hi) && v.testBit (lo + i)))

/-- Bundles written out in 95_test_vectors.md section 5 (programs P1 to P5) decode to the operations they are written for. -/
def Obligations.PublishedBundlesDecode : Prop :=
  decode Config.p0 ⟨.fCfg, 0x202DC6C00007A1200⟩ = .instr (.divcfg true 0 48000000 8000000) ∧
  decode Config.p0 ⟨.fCfg, 0x302DC6C00007A1200⟩ = .instr (.divcfg true 1 48000000 8000000) ∧
  decode Config.p0 ⟨.fCfg, 0x002DC6C00007A1200⟩ = .instr (.divcfg false 0 48000000 8000000) ∧
  decode Config.p0 ⟨.fSel, 0x02DC6C00007A1200⟩ = .instr (.divsel 48000000 8000000) ∧
  decode Config.p0 ⟨.fFreq, 0x202DC6C00⟩ = .instr (.divfreq 2 48000000) ∧
  decode Config.p0 ⟨.fFreq, 0x502DC6C00⟩ = .instr (.divfreq 5 48000000) ∧
  decode { Config.p0 with nbus := 2 } ⟨.fCfg, 0x50501BD0000989680⟩ = .instr (.divcfg true 1 84000000 10000000) ∧
  decode Config.p0 ⟨.selCode, 0b110⟩ = .instr .sel6

/-- Decode and encode agree: every well-formed instruction is read back from its bundle with every operand
(30_encoding.md section 2). -/
def Obligations.DecodeReadsBackEncode : Prop :=
  ∀ (P : Params) (i : Instr), P.Valid → i.wellFormed P = true → decode P (encode P i) = .instr i

/-- And the other way: a bundle that decodes is the bundle of the instruction read, which is well-formed. -/
def Obligations.EncodeReadsBackDecode : Prop :=
  ∀ (P : Params) (b : Bundle) (i : Instr), P.Valid → decode P b = .instr i → i.wellFormed P = true ∧ encode P i = b

/-- On the ports as they stand a bundle is an instruction exactly when it fits the ports of an operation (30_encoding.md sections
2 and 3). The reserved selector codes of rule R31 fit the port, so they decode; what running one raises is said by
`SelectorOutOfRangeRaises` and `SelectorCodesDriveTheDivider`. Model's choices: a selector code above 7 is read as `DIVFREQ` on
the present clock (log 5); how a bundle says which ports it drives, and that bits above them are refused (log 6). -/
def Obligations.EveryFittingBundleIsAnInstruction : Prop :=
  ∀ (P : Params) (clkInHz : Nat) (b : Bundle),
    (∃ i, decodeOnPorts P clkInHz b = .instr i) ↔ b.wellFormed P = true

/-- 30_encoding.md rule R30: selectors and division factors. -/
def Obligations.SelectorCodesEncodeFactors : Prop :=
  ∀ P : Params,
    (1 ≤ P.selw ∧ P.maxDivider < 2 ^ P.selw ∧ ∀ k, 1 ≤ k → P.maxDivider < 2 ^ k → P.selw ≤ k) ∧
    (∀ n, n ≤ P.maxDivider → factorOf n = 2 ^ (n + 1) ∧ selOfFactor P (factorOf n) = some n) ∧
    (∀ factor n, selOfFactor P factor = some n → n ≤ P.maxDivider ∧ factorOf n = factor) ∧
    (∀ k, 1 ≤ k → k ≤ P.maxDivider + 1 → selOfFactor P (2 ^ k) = some (k - 1)) ∧
    selOfFactor P 1 = none ∧
    (∀ factor, (∀ k, factor ≠ 2 ^ k) → selOfFactor P factor = none) ∧
    (∀ row ∈ [(0, 2, 24000000), (1, 4, 12000000), (2, 8, 6000000), (3, 16, 3000000), (4, 32, 1500000), (5, 64, 750000),
      (6, 128, 375000), (7, 256, 187500)], factorOf row.1 = row.2.1 ∧ 48000000 / row.2.1 = row.2.2)

/-- 30_encoding.md rule R31: reserved selector codes. They exist where `MAX_DIVIDER + 1` is not a power of two; the machine never
produces one and does not extend the law `2^(n+1)` to one. -/
def Obligations.ReservedSelectorCodes : Prop :=
  (∀ P : Params, (∀ k, P.maxDivider + 1 ≠ 2 ^ k) → ∃ n, P.maxDivider < n ∧ Fits P.selw n) ∧
  (∀ (P : Params) (n factor : Nat), P.maxDivider < n → selOfFactor P factor ≠ some n) ∧
  (∀ s n clkInHz, s.maxDivider < n → exec (.divfreq n clkInHz) s = .fault (.selectorRange n)) ∧
  (∀ s t clkInHz reqHz, exec (.divsel clkInHz reqHz) s = .next t → t.sel.sel ≤ s.maxDivider) ∧
  (∀ s t en b clkInHz reqHz, s.Inv → exec (.divcfg en b clkInHz reqHz) s = .next t → t.cfg.sel ≤ s.maxDivider) ∧
  (∀ n, Fits Config.p0.selw n → n ≤ Config.p0.maxDivider)

/-! ### DIVFREQ and the selector codes -/

/-- 40_divfreq.md rule R41: `DIVFREQ` completes for every selector in range and every input clock, with the factor, floor and
remainder on its outputs, each no wider than its port, and everything else as it was; above the range it raises
`SelectorRange`. -/
def Obligations.DivfreqDividesTheInputClock : Prop :=
  ∀ (s : State) (n clkInHz : Nat),
    (n ≤ s.maxDivider →
      exec (.divfreq n clkInHz) s = .next { s with
        freq := { sel := n, clkInHz := clkInHz, factor := 2 ^ (n + 1), clkOutHz := clkInHz / 2 ^ (n + 1),
                  clkOutRem := clkInHz % 2 ^ (n + 1) } } ∧
      (Fits s.width clkInHz →
        Fits (s.maxDivider + 2) (2 ^ (n + 1)) ∧ Fits s.width (clkInHz / 2 ^ (n + 1)) ∧
        Fits (s.maxDivider + 1) (clkInHz % 2 ^ (n + 1)))) ∧
    (s.maxDivider < n → exec (.divfreq n clkInHz) s = .fault (.selectorRange n))

/-- The rows `SEL.0` to `SEL.7`: each code in range completes with `DIVFREQ`'s outputs for that selector at the input clock
present on the port; a reserved code raises `SelectorRange`. The factors are 30_encoding.md section 1; that a code alone is
presented to `DIVFREQ`'s `sel` port with the other port held is the model's choice, log 4. -/
def Obligations.SelectorCodesDriveTheDivider : Prop :=
  ∀ (s : State), ∀ row ∈ [(Instr.sel0, 0), (Instr.sel1, 1), (Instr.sel2, 2), (Instr.sel3, 3), (Instr.sel4, 4),
      (Instr.sel5, 5), (Instr.sel6, 6), (Instr.sel7, 7)],
    (row.2 ≤ s.maxDivider →
      exec row.1 s = .next { s with
        freq := { sel := row.2, clkInHz := s.freq.clkInHz, factor := 2 ^ (row.2 + 1),
                  clkOutHz := s.freq.clkInHz / 2 ^ (row.2 + 1), clkOutRem := s.freq.clkInHz % 2 ^ (row.2 + 1) } }) ∧
    (s.maxDivider < row.2 → exec row.1 s = .fault (.selectorRange row.2))

/-- 40_divfreq.md rule R42: the two output ports carry the exact quotient. -/
def Obligations.OutputPortsCarryTheExactQuotient : Prop :=
  ∀ (s t : State) (n clkInHz : Nat), exec (.divfreq n clkInHz) s = .next t →
    t.freq.clkOutHz = clkInHz / 2 ^ (n + 1) ∧ t.freq.clkOutRem = clkInHz % 2 ^ (n + 1) ∧
    (t.freq.clkOutHz : ℚ) + (t.freq.clkOutRem : ℚ) / 2 ^ (n + 1) = (clkInHz : ℚ) / 2 ^ (n + 1) ∧
    clkInHz = t.freq.clkOutHz * t.freq.factor + t.freq.clkOutRem

/-- 40_divfreq.md rule R43: "does not exceed" is the inequality of rationals, which is the cross-multiplied one and not the
comparison of the floor. -/
def Obligations.DoesNotExceedIsCrossMultiplied : Prop :=
  (∀ clkInHz n reqHz : Nat,
    (outputHz clkInHz n ≤ (reqHz : ℚ) ↔ clkInHz ≤ reqHz * 2 ^ (n + 1)) ∧
    (outputHz clkInHz n ≤ (reqHz : ℚ) ↔ ¬ Exceeds clkInHz n reqHz) ∧
    (clkInHz / 2 ^ (n + 1) ≤ reqHz ↔ outputHz clkInHz n < (reqHz : ℚ) + 1)) ∧
  (48000001 / 2 ^ (1 + 1) = 12000000 ∧ outputHz 48000001 1 = 12000000 + 1 / 4 ∧ Exceeds 48000001 1 12000000)

/-- A selector above `MAX_DIVIDER` raises `SelectorRange` (40_divfreq.md section 2); a port can carry one only where
`MAX_DIVIDER + 1` is not a power of two or, which the spec does not say, where `MAX_DIVIDER = 0` (log 22). -/
def Obligations.SelectorOutOfRangeRaises : Prop :=
  ∀ (s : State) (n clkInHz : Nat), s.maxDivider < n →
    exec (.divfreq n clkInHz) s = .fault (.selectorRange n) ∧
    ((Instr.divfreq n clkInHz).wellFormed s.params = true →
      s.maxDivider = 0 ∨ ∀ k, s.maxDivider + 1 ≠ 2 ^ k)

/-- 40_divfreq.md rule R45: the laws of the divider. -/
def Obligations.DividerLaws : Prop :=
  ∀ (s : State) (clkInHz : Nat),
    (∀ n, n + 1 ≤ s.maxDivider → ∃ t u, exec (.divfreq n clkInHz) s = .next t ∧
      exec (.divfreq (n + 1) clkInHz) s = .next u ∧ u.freq.outputHz = t.freq.outputHz / 2 ∧
      (0 < clkInHz → u.freq.outputHz < t.freq.outputHz)) ∧
    (∀ n clkInHz' t u, clkInHz ≤ clkInHz' → exec (.divfreq n clkInHz) s = .next t →
      exec (.divfreq n clkInHz') s = .next u → t.freq.outputHz ≤ u.freq.outputHz) ∧
    (∀ q : ℚ, (∃ n t, exec (.divfreq n clkInHz) s = .next t ∧ t.freq.outputHz = q) ↔
      ∃ k, 1 ≤ k ∧ k ≤ s.maxDivider + 1 ∧ q = (clkInHz : ℚ) / 2 ^ k) ∧
    (∀ (k n : Nat) (t : State), 0 < clkInHz → (k = 1 ∨ ∀ j, k ≠ 2 ^ j) → exec (.divfreq n clkInHz) s = .next t →
      t.freq.outputHz ≠ (clkInHz : ℚ) / k) ∧
    (∀ (k n : Nat) (t u : State), k * clkInHz < 2 ^ s.width → exec (.divfreq n clkInHz) s = .next t →
      exec (.divfreq n (k * clkInHz)) s = .next u → u.freq.outputHz = k * t.freq.outputHz)

/-- The period reading of a division factor (40_divfreq.md section 3): one output period lasts `2^(n+1)` input periods. -/
def Obligations.OutputPeriodIsFactorInputPeriods : Prop :=
  ∀ (s t : State) (n clkInHz : Nat), 0 < clkInHz → exec (.divfreq n clkInHz) s = .next t →
    1 / t.freq.outputHz = 2 ^ (n + 1) * (1 / (clkInHz : ℚ))

/-! ### DIVSEL -/

/-- 41_divsel.md rule R50: `DIVSEL` completes for every nonzero request with the selector the algorithm gives, everything else
as it was; a request of 0 raises `ZeroRequest`. The three clauses on `n` are the threshold, the power of two, and the ratio
strictly between two powers of two. -/
def Obligations.DivselReturnsTheSelector : Prop :=
  (∀ (s : State) (clkInHz reqHz : Nat),
    (reqHz ≠ 0 → ∃ n,
      exec (.divsel clkInHz reqHz) s = .next { s with sel := { clkInHz := clkInHz, reqHz := reqHz, sel := n } } ∧
      (clkInHz * 2 ^ s.shift / (2 * reqHz) ≤ 2 ^ s.shift → n = 0) ∧
      (∀ j, clkInHz * 2 ^ s.shift / (2 * reqHz) = 2 ^ (s.shift + j) → n = min j s.maxDivider) ∧
      (∀ j, 2 ^ (s.shift + j) < clkInHz * 2 ^ s.shift / (2 * reqHz) →
        clkInHz * 2 ^ s.shift / (2 * reqHz) < 2 ^ (s.shift + j + 1) → n = min (j + 1) s.maxDivider)) ∧
    (reqHz = 0 → exec (.divsel clkInHz reqHz) s = .fault .zeroRequest)) ∧
  (∀ s : State, 2 ≤ s.maxDivider →
    exec (.divsel 48000000 8000000) s = .next { s with sel := { clkInHz := 48000000, reqHz := 8000000, sel := 2 } })

/-- 41_divsel.md rule R51: the fixed-point ratio is the truncated one. -/
def Obligations.FixedPointRatioTruncates : Prop :=
  ∀ (P : Params) (clkInHz reqHz : Nat), reqHz ≠ 0 →
    ratioQ P clkInHz reqHz = clkInHz * 2 ^ P.s / (2 * reqHz) ∧
    (ratioQ P clkInHz reqHz : ℚ) / 2 ^ P.s ≤ exactRatio clkInHz reqHz ∧
    exactRatio clkInHz reqHz < ((ratioQ P clkInHz reqHz : ℚ) + 1) / 2 ^ P.s

/-- 41_divsel.md rule R52: the selector-0 branch is the test `Q ≤ 2^S`, on the operands `B·2^S < 2·f·(2^S + 1)`, and not the
literal `ratio ≤ 2`. -/
def Obligations.SelectorZeroThreshold : Prop :=
  (∀ (s t : State) (clkInHz reqHz : Nat), exec (.divsel clkInHz reqHz) s = .next t →
    (ratioQ s.params clkInHz reqHz ≤ 2 ^ s.shift ↔ clkInHz * 2 ^ s.shift < 2 * reqHz * (2 ^ s.shift + 1)) ∧
    (ratioQ s.params clkInHz reqHz ≤ 2 ^ s.shift → t.sel.sel = 0) ∧
    (1 ≤ s.maxDivider → t.sel.sel = 0 → ratioQ s.params clkInHz reqHz ≤ 2 ^ s.shift)) ∧
  (∀ (s t : State), 1 ≤ s.maxDivider → exec (.divsel 48000000 12000000) s = .next t → t.sel.sel = 1)

/-- 41_divsel.md rule R56: the result is in range, so it is always a legal operand of `DIVFREQ`. -/
def Obligations.DivselResultIsInRange : Prop :=
  ∀ (s t : State) (clkInHz reqHz : Nat), exec (.divsel clkInHz reqHz) s = .next t →
    t.sel.sel ≤ s.maxDivider ∧ Fits s.params.selw t.sel.sel ∧
    ∀ clkInHz', ∃ u, exec (.divfreq t.sel.sel clkInHz') t = .next u

/-- 41_divsel.md rule R57 and 40_divfreq.md rule R47: purity. Whatever operations ran in between, in whatever number and
order, the same inputs give the same outputs, and nothing but the operation's own ports changes. -/
def Obligations.PureOperationsGiveTheSameResultAgain : Prop :=
  ∀ (is : List Instr) (s t : State), runInstrs is s = .next t →
    (∀ clkInHz reqHz s', exec (.divsel clkInHz reqHz) s = .next s' →
      exec (.divsel clkInHz reqHz) t = .next { t with sel := s'.sel } ∧ s' = { s with sel := s'.sel }) ∧
    (∀ n clkInHz s', exec (.divfreq n clkInHz) s = .next s' →
      exec (.divfreq n clkInHz) t = .next { t with freq := s'.freq } ∧ s' = { s with freq := s'.freq })

/-- 41_divsel.md rule R58: a request of 0 has no selector. -/
def Obligations.DivselRefusesZeroRequest : Prop :=
  ∀ (s : State) (clkInHz : Nat), exec (.divsel clkInHz 0) s = .fault .zeroRequest

/-- 41_divsel.md rule R66: a bus clock of 0 is accepted, selector 0, and `DIVFREQ(0, 0)` is 0 Hz. -/
def Obligations.ZeroBusClockIsAccepted : Prop :=
  ∀ (s : State) (reqHz : Nat), reqHz ≠ 0 → ∃ t u,
    exec (.divsel 0 reqHz) s = .next t ∧ t.sel.sel = 0 ∧ exec (.divfreq t.sel.sel 0) t = .next u ∧ u.freq.outputHz = 0

/-- 41_divsel.md rule R59: the closed form. -/
def Obligations.SelectorIsTheClampedLeastExponent : Prop :=
  ∀ (s t : State) (clkInHz reqHz : Nat), exec (.divsel clkInHz reqHz) s = .next t →
    (ratioQ s.params clkInHz reqHz ≤ 2 ^ (s.shift + kStar s.params clkInHz reqHz) ∧
      ∀ j, j < kStar s.params clkInHz reqHz → 2 ^ (s.shift + j) < ratioQ s.params clkInHz reqHz) ∧
    t.sel.sel = min (kStar s.params clkInHz reqHz) s.maxDivider ∧
    (ratioQ s.params clkInHz reqHz ≤ 2 ^ s.shift → kStar s.params clkInHz reqHz = 0) ∧
    (2 ^ s.shift < ratioQ s.params clkInHz reqHz →
      (kStar s.params clkInHz reqHz : ℤ) = ⌈Real.logb 2 ((ratioQ s.params clkInHz reqHz : ℝ) / 2 ^ s.shift)⌉)

/-- 41_divsel.md rule R60: the non-exceed property in its exact form. The output clock exceeds an unclamped request exactly in
the truncation window, and by less than one part in `2^(S+n)`; with the counterexample to the unconditional guarantee. -/
def Obligations.OvershootExactlyInTheTruncationWindow : Prop :=
  (∀ (s t : State) (clkInHz reqHz n : Nat), exec (.divsel clkInHz reqHz) s = .next t → n = t.sel.sel →
    ¬ Clamped s.params clkInHz reqHz →
    (Exceeds clkInHz n reqHz ↔ ratioQ s.params clkInHz reqHz = 2 ^ (s.shift + n) ∧ Inexact s.params clkInHz reqHz) ∧
    clkInHz * 2 ^ s.shift < reqHz * (2 ^ (s.shift + n + 1) + 2) ∧
    outputHz clkInHz n < (reqHz : ℚ) * (1 + 1 / 2 ^ (s.shift + n)) ∧
    (Exceeds clkInHz n reqHz ↔ reqHz * 2 ^ (s.shift + n + 1) < clkInHz * 2 ^ s.shift ∧
      clkInHz * 2 ^ s.shift < reqHz * 2 ^ (s.shift + n + 1) + 2 * reqHz) ∧
    (¬ Inexact s.params clkInHz reqHz → clkInHz ≤ reqHz * 2 ^ (n + 1)) ∧
    (2 * reqHz ∣ clkInHz * 2 ^ s.shift → clkInHz ≤ reqHz * 2 ^ (n + 1))) ∧
  (selector Config.p0 50000000 24000000 = 0 ∧ ¬ Clamped Config.p0 50000000 24000000 ∧ Overshoot Config.p0 50000000 24000000 ∧
    2 * 24000000 ≤ 50000000)

/-- 41_divsel.md rule R61: never slower by a whole step; the smallest selector that does not exceed, but one below it in the
truncation window, and the largest where none meets the request. -/
def Obligations.FastestNonExceedingChoice : Prop :=
  ∀ (s t : State) (clkInHz reqHz n : Nat), exec (.divsel clkInHz reqHz) s = .next t → n = t.sel.sel →
    (1 ≤ n → reqHz * 2 ^ n < clkInHz) ∧
    (¬ Clamped s.params clkInHz reqHz → ¬ Exceeds clkInHz n reqHz →
      ∀ m, ¬ Exceeds clkInHz m reqHz ↔ n ≤ m) ∧
    (¬ Clamped s.params clkInHz reqHz → Exceeds clkInHz n reqHz →
      ∀ m, ¬ Exceeds clkInHz m reqHz ↔ n + 1 ≤ m) ∧
    (Clamped s.params clkInHz reqHz → n = s.maxDivider ∧ ∀ m, m ≤ s.maxDivider → Exceeds clkInHz m reqHz)

/-- 41_divsel.md rule R62: monotonicity and scaling. -/
def Obligations.SelectorIsMonotoneAndScaleFree : Prop :=
  ∀ (s t u : State) (clkInHz reqHz : Nat), exec (.divsel clkInHz reqHz) s = .next t →
    (∀ clkInHz', clkInHz ≤ clkInHz' → exec (.divsel clkInHz' reqHz) s = .next u → t.sel.sel ≤ u.sel.sel) ∧
    (∀ reqHz', reqHz ≤ reqHz' → exec (.divsel clkInHz reqHz') s = .next u → u.sel.sel ≤ t.sel.sel) ∧
    (∀ k, 1 ≤ k → exec (.divsel (k * clkInHz) (k * reqHz)) s = .next u → u.sel.sel = t.sel.sel)

/-- 41_divsel.md rule R63: the selector-0 branch falls short of an unreachable request and never exceeds it; its only overshoot
is the truncation window at `n = 0`, where selector 1 would have met the request. -/
def Obligations.UnreachablyFastRequestFallsShort : Prop :=
  ∀ (s t : State) (clkInHz reqHz : Nat), exec (.divsel clkInHz reqHz) s = .next t →
    (clkInHz ≤ 2 * reqHz → t.sel.sel = 0 ∧ outputHz clkInHz 0 ≤ (reqHz : ℚ) ∧
      (outputHz clkInHz 0 = (reqHz : ℚ) ↔ 2 * reqHz = clkInHz)) ∧
    (ratioQ s.params clkInHz reqHz ≤ 2 ^ s.shift →
      (Exceeds clkInHz t.sel.sel reqHz ↔
        2 * reqHz < clkInHz ∧ (clkInHz : ℚ) < 2 * reqHz * (1 + 1 / 2 ^ s.shift)) ∧
      ¬ Exceeds clkInHz 1 reqHz)

/-- 41_divsel.md rule R64: the clamp. Where it bites, the selector is the largest and the output strictly exceeds the request. -/
def Obligations.ClampedRequestIsAlwaysExceeded : Prop :=
  (∀ (s t : State) (clkInHz reqHz : Nat), exec (.divsel clkInHz reqHz) s = .next t →
    (Clamped s.params clkInHz reqHz ↔ 2 ^ (s.shift + s.maxDivider) < ratioQ s.params clkInHz reqHz) ∧
    (Clamped s.params clkInHz reqHz ↔
      2 * reqHz * (2 ^ (s.shift + s.maxDivider) + 1) ≤ clkInHz * 2 ^ s.shift) ∧
    (Clamped s.params clkInHz reqHz → t.sel.sel = s.maxDivider ∧ reqHz * 2 ^ (s.maxDivider + 1) < clkInHz)) ∧
  (ratioQ Config.p0 48000000 100000 = 3840 ∧ kStar Config.p0 48000000 100000 = 8 ∧
    selector Config.p0 48000000 100000 = 7 ∧ outputHz 48000000 7 = 187500 ∧ Overshoot Config.p0 48000000 100000)

/-- 41_divsel.md rule R65: the widths the exact arithmetic needs, agreement with a `W`-bit wrapping implementation on the safe
domain, and a difference in each direction outside it. -/
def Obligations.WrappingArithmeticAgreesOnTheSafeDomain : Prop :=
  (∀ (P : Params) (clkInHz reqHz : Nat), 1 ≤ P.w → Fits P.w clkInHz → Fits P.w reqHz → reqHz ≠ 0 →
    Fits (P.w + P.s) (clkInHz <<< P.s) ∧ Fits (P.w + 1) (2 * reqHz) ∧ Fits (P.w + P.s - 1) (ratioQ P clkInHz reqHz) ∧
    (ratioQ P clkInHz reqHz ≠ 0 → msb (ratioQ P clkInHz reqHz) + 2 ≤ P.w + P.s) ∧
    unclampedSel P (ratioQ P clkInHz reqHz) ≤ P.w - 1) ∧
  (∀ (P : Params) (clkInHz reqHz : Nat), 1 ≤ P.w → SafeDomain P clkInHz reqHz →
    wrappingSelector P clkInHz reqHz = selector P clkInHz reqHz) ∧
  (wrappingSelector Config.p0 268435456 1000000 < selector Config.p0 268435456 1000000) ∧
  (selector Config.p0 134217728 2147483649 < wrappingSelector Config.p0 134217728 2147483649)

/-! ### DIVCFG -/

/-- 42_divcfg.md rule R70: `DIVCFG` on a configured bus with the clock domain on and a nonzero request completes. On a miss it
writes both fields of that record, on a hit nothing; it returns the cached selector; the three faults come in their order. The
selector written on a miss is the one `DIVSEL` returns for the same operands (last clause). -/
def Obligations.DivcfgLooksTheRequestUp : Prop :=
  ∀ (s : State) (b clkInHz reqHz : Nat) (en : Bool),
    (∀ old, s.buses[b]? = some old → reqHz ≠ 0 → reqHz ≠ old.record.cachedClockHz →
      exec (.divcfg true b clkInHz reqHz) s = .next { s with
        buses := s.buses.set b
          { old with record := { cachedClockHz := reqHz, cachedDivider := selector s.params clkInHz reqHz } }
        cfg := { clkEn := true, bus := b, clkInHz := clkInHz, reqHz := reqHz, sel := selector s.params clkInHz reqHz } }) ∧
    (∀ old, s.buses[b]? = some old → reqHz ≠ 0 → reqHz = old.record.cachedClockHz →
      exec (.divcfg true b clkInHz reqHz) s = .next { s with
        cfg := { clkEn := true, bus := b, clkInHz := clkInHz, reqHz := reqHz, sel := old.record.cachedDivider } }) ∧
    (s.nbus ≤ b → exec (.divcfg en b clkInHz reqHz) s = .fault (.busIndex b)) ∧
    (b < s.nbus → exec (.divcfg false b clkInHz reqHz) s = .fault (.clockDomainOff b)) ∧
    (b < s.nbus → exec (.divcfg true b clkInHz 0) s = .fault .zeroRequest) ∧
    (reqHz ≠ 0 → exec (.divsel clkInHz reqHz) s = .next { s with
      sel := { clkInHz := clkInHz, reqHz := reqHz, sel := selector s.params clkInHz reqHz } })

/-- 60_exceptions.md rule R86, 42_divcfg.md rules R73 and R77: exactly which fault a `DIVCFG` raises, hit or miss; `DIVSEL` and
`DIVFREQ` can each raise one only. -/
def Obligations.DivcfgFaultPriority : Prop :=
  ∀ (s : State) (en : Bool) (b clkInHz reqHz : Nat) (f : Fault),
    (exec (.divcfg en b clkInHz reqHz) s = .fault f ↔
      (s.nbus ≤ b ∧ f = .busIndex b) ∨
      (b < s.nbus ∧ en = false ∧ f = .clockDomainOff b) ∨
      (b < s.nbus ∧ en = true ∧ reqHz = 0 ∧ f = .zeroRequest)) ∧
    (exec (.divsel clkInHz reqHz) s = .fault f → f = .zeroRequest) ∧
    (∀ n, exec (.divfreq n clkInHz) s = .fault f → f = .selectorRange n)

/-- 42_divcfg.md rule R71: after a completed `DIVCFG` the record holds the request and the returned selector; the same
`DIVCFG` again changes nothing; a hit writes nothing; on a miss, or where `B` is the clock of the last miss, the returned
selector is `DIVSEL(B, f)`. -/
def Obligations.DivcfgIsIdempotent : Prop :=
  ∀ (s t : State) (b clkInHz reqHz : Nat) (r : BusRecord), s.recordOf b = some r →
    exec (.divcfg true b clkInHz reqHz) s = .next t →
    t.recordOf b = some { cachedClockHz := reqHz, cachedDivider := t.cfg.sel } ∧
    exec (.divcfg true b clkInHz reqHz) t = .next t ∧
    (reqHz = r.cachedClockHz → t.buses = s.buses ∧ t.cfg.sel = r.cachedDivider) ∧
    (reqHz ≠ r.cachedClockHz → t.cfg.sel = selector s.params clkInHz reqHz) ∧
    (∀ hz, CacheValid hz s → hz b = clkInHz → t.cfg.sel = selector s.params clkInHz reqHz)

/-- 42_divcfg.md rule R72: the cache key is the request alone. On a hit `B` is ignored; a set record is stale after a change of
`B`; a different request evicts the one entry, so alternating requests miss every time. -/
def Obligations.CacheIsKeyedByTheRequestAlone : Prop :=
  (∀ (s t u : State) (b clkInHz clkInHz' reqHz : Nat) (r : BusRecord), s.recordOf b = some r → reqHz = r.cachedClockHz →
    exec (.divcfg true b clkInHz reqHz) s = .next t → exec (.divcfg true b clkInHz' reqHz) s = .next u →
    t.buses = u.buses ∧ t.cfg.sel = u.cfg.sel) ∧
  (∀ (s t u : State) (b clkInHz clkInHz' reqHz : Nat) (r : BusRecord), s.recordOf b = some r → reqHz ≠ r.cachedClockHz →
    exec (.divcfg true b clkInHz reqHz) s = .next t → exec (.divcfg true b clkInHz' reqHz) t = .next u →
    u.cfg.sel = selector s.params clkInHz reqHz ∧ u.buses = t.buses) ∧
  (∀ (s t u v : State) (b hz₁ hz₂ hz₃ reqHz reqHz' : Nat), reqHz ≠ reqHz' →
    exec (.divcfg true b hz₁ reqHz) s = .next t → exec (.divcfg true b hz₂ reqHz') t = .next u →
    exec (.divcfg true b hz₃ reqHz) u = .next v →
    u.recordOf b = some { cachedClockHz := reqHz', cachedDivider := selector s.params hz₂ reqHz' } ∧
    v.recordOf b = some { cachedClockHz := reqHz, cachedDivider := selector s.params hz₃ reqHz })

/-- 20_memory.md rule R21: an index outside `0 .. NBUS-1` is fatal, and a step on bus `b` reads and writes the record of `b`
only. -/
def Obligations.DivcfgTouchesItsOwnBusOnly : Prop :=
  ∀ (s : State) (en : Bool) (b clkInHz reqHz : Nat),
    (s.nbus ≤ b → exec (.divcfg en b clkInHz reqHz) s = .fault (.busIndex b)) ∧
    (∀ t, exec (.divcfg en b clkInHz reqHz) s = .next t →
      (∀ b', b' ≠ b → t.buses[b']? = s.buses[b']?) ∧
      ∀ u, u.params = s.params → u.recordOf b = s.recordOf b →
        ∃ v, exec (.divcfg en b clkInHz reqHz) u = .next v ∧ v.recordOf b = t.recordOf b ∧ v.cfg = t.cfg)

/-- 20_memory.md section 3 (d): steps on different buses commute, records and returned selectors alike. -/
def Obligations.StepsOnDifferentBusesCommute : Prop :=
  ∀ (s t u : State) (b b' hz hz' f f' : Nat), b ≠ b' →
    exec (.divcfg true b hz f) s = .next t → exec (.divcfg true b' hz' f') t = .next u →
    ∃ v w, exec (.divcfg true b' hz' f') s = .next v ∧ exec (.divcfg true b hz f) v = .next w ∧
      w.buses = u.buses ∧ w.cfg = t.cfg ∧ v.cfg = u.cfg

/-- 20_memory.md section 3 (e), and (d) for the ports: two operations that drive different ports commute, so `DIVFREQ` with
`DIVSEL` and `DIVCFG`, and `DIVSEL` with `DIVCFG`. Selector codes are among them as drivers of `DIVFREQ`'s ports: the model's
choice, log 4. -/
def Obligations.OperationsOnDifferentPortsCommute : Prop :=
  ∀ (s t u : State) (i j : Instr), portsDriven i ≠ portsDriven j → exec i s = .next t → exec j t = .next u →
    ∃ v, exec j s = .next v ∧ exec i v = .next u

/-! ### The whole machine -/

/-- The complete set of faults (60_exceptions.md section 1), each with who raises it, exactly when, and the value recorded; and no
instruction of the table is refused. The table there names `DIVFREQ` as the raiser of `SelectorRange`; that a selector code
raises it too is the model's choice, log 4. -/
def Obligations.CompleteFaultSet : Prop :=
  ∀ (i : Instr) (s : State),
    (∀ f, exec i s = .fault f ↔
      (∃ en b hz req, i = .divcfg en b hz req ∧ s.nbus ≤ b ∧ f = .busIndex b) ∨
      (∃ b hz req, i = .divcfg false b hz req ∧ b < s.nbus ∧ f = .clockDomainOff b) ∨
      (∃ hz, i = .divsel hz 0 ∧ f = .zeroRequest) ∨
      (∃ b hz, i = .divcfg true b hz 0 ∧ b < s.nbus ∧ f = .zeroRequest) ∨
      (∃ n, ((∃ hz, i = .divfreq n hz) ∨ (i, n) ∈ [(Instr.sel0, 0), (Instr.sel1, 1), (Instr.sel2, 2), (Instr.sel3, 3),
        (Instr.sel4, 4), (Instr.sel5, 5), (Instr.sel6, 6), (Instr.sel7, 7)]) ∧ s.maxDivider < n ∧ f = .selectorRange n)) ∧
    ∀ r, exec i s ≠ .refused r

/-- The frame of every instruction (10_state.md sections 1 to 3): the parameters, the number of buses and the lines to come stay;
each operation drives its own ports only; only `DIVCFG` touches a bus, only its own, and of it only the record. Model's choices:
what a selector code alone leaves unchanged (log 4), and that the lines to come are in the state (log 7). -/
def Obligations.InstructionFrames : Prop :=
  ∀ (i : Instr) (s t : State), exec i s = .next t →
    t.width = s.width ∧ t.shift = s.shift ∧ t.maxDivider = s.maxDivider ∧ t.nbus = s.nbus ∧ t.pending = s.pending ∧
    ((∃ n hz, i = .divfreq n hz) ∨ i ∈ [Instr.sel0, .sel1, .sel2, .sel3, .sel4, .sel5, .sel6, .sel7] →
      t.buses = s.buses ∧ t.sel = s.sel ∧ t.cfg = s.cfg) ∧
    ((∃ hz f, i = .divsel hz f) → t.buses = s.buses ∧ t.freq = s.freq ∧ t.cfg = s.cfg) ∧
    (∀ en b hz f, i = .divcfg en b hz f → t.freq = s.freq ∧ t.sel = s.sel ∧
      (∀ b', b' ≠ b → t.buses[b']? = s.buses[b']?) ∧
      ∀ old new, s.buses[b]? = some old → t.buses[b]? = some new →
        new.window = old.window ∧ new.programmedSel = old.programmedSel ∧ new.clockHz = old.clockHz)

/-- A step runs the decoded instruction: the oldest pending bundle, as its ports stand, with the rest still pending; a bundle
that is no instruction is refused by name; with nothing presented nothing changes (log 7). -/
def Obligations.StepRunsTheDecodedInstruction : Prop :=
  (∀ (s : State) (b : Bundle) (rest : List Line) (i : Instr), s.pending = .bundle b :: rest →
    (decode s.params b = .instr i → step s = exec i { s with pending := rest }) ∧
    (decodeOnPorts s.params s.freq.clkInHz b = .instr i → step s = exec i { s with pending := rest })) ∧
  (∀ (s : State) (b : Bundle) (rest : List Line) (e : DecodeError), s.pending = .bundle b :: rest →
    decodeOnPorts s.params s.freq.clkInHz b = .error e → step s = .refused (.undecodable e)) ∧
  (∀ s : State, s.pending = [] → step s = .next s)

/-- Records change only by a missing `DIVCFG` (10_state.md section 2): over every step of the machine, `release` and a changed bus
clock included, a record that changes was written whole by a `DIVCFG` with the domain enabled and a new nonzero request (the
bundle, or the clock step of `acquire`). -/
def Obligations.RecordsChangeOnlyByMissingDivcfg : Prop :=
  ∀ (s t : State) (b : Nat) (r r' : BusRecord), step s = .next t → s.recordOf b = some r → t.recordOf b = some r' → r' ≠ r →
    ∃ hz f, f ≠ 0 ∧ f ≠ r.cachedClockHz ∧ r' = { cachedClockHz := f, cachedDivider := selector s.params hz f } ∧
      ((∃ bits rest, s.pending = .bundle bits :: rest ∧ decode s.params bits = .instr (.divcfg true b hz f)) ∨
        ∃ rest bus, s.pending = .acquire b f :: rest ∧ s.buses[b]? = some bus ∧ bus.window = .idle ∧ bus.clockHz = hz)

/-- A set record stays set (10_state.md section 4): no step makes a nonzero cached request 0, and no step removes a record. -/
def Obligations.SetRecordStaysSet : Prop :=
  ∀ (s t : State) (b : Nat) (r : BusRecord), step s = .next t → s.recordOf b = some r →
    ∃ r', t.recordOf b = some r' ∧ (r.cachedClockHz ≠ 0 → r'.cachedClockHz ≠ 0)

/-- 10_state.md rule R12: the cached selector is `DIVSEL` of the cached request at the bus clock of the `DIVCFG` that last wrote
the record. Reset establishes it, every operation keeps it, and so does every step of the machine, the clock step of `acquire`,
`release`, `divact` and a changed bus clock included. -/
def Obligations.CachedSelectorIsValidForItsRequest : Prop :=
  (∀ (P : Params) (hz : Nat → Nat), CacheValid hz (State.resetFor P)) ∧
  (∀ (hz : Nat → Nat) (i : Instr) (s t : State), CacheValid hz s → exec i s = .next t → CacheValid (missClock hz i s) t) ∧
  (∀ (hz : Nat → Nat) (s t : State), CacheValid hz s → step s = .next t → CacheValid (stepMissClock hz s) t)

/-- The history of a record over any run of operations (10_state.md section 2, 20_memory.md section 3): it is untouched, every
`DIVCFG` on its bus having requested what was cached, or it is what the last missing `DIVCFG` of the run wrote, every later one
having requested the same. -/
def Obligations.RecordIsWhatTheLastMissWrote : Prop :=
  ∀ (is : List Instr) (s t : State) (b : Nat) (r r' : BusRecord), runInstrs is s = .next t → s.recordOf b = some r →
    t.recordOf b = some r' →
    (r' = r ∧ ∀ en hz f, Instr.divcfg en b hz f ∈ is → f = r.cachedClockHz) ∨ LastMiss b is s r'

/-- Buses do not interfere (20_memory.md section 3): a completed run leaves on each bus what its own `DIVCFG` operations alone,
in their order, would leave there. -/
def Obligations.BusRecordDependsOnItsOwnStepsOnly : Prop :=
  ∀ (is : List Instr) (s t : State) (b : Nat), runInstrs is s = .next t →
    ∃ u, runInstrs (is.filter (onBus b)) s = .next u ∧ u.recordOf b = t.recordOf b

/-- The value of `cached_divider` before its first write cannot be told (10_state.md section 4): two states that differ only in
the selectors of unset records step alike, faults, refusals and every port included. -/
def Obligations.UnsetSelectorIsUnobservable : Prop :=
  ∀ s t : State, s.AlikeButUnset t → AlikeOutcomes (step s) (step t)

/-- Every step keeps the invariant of the machine: values fit their fields, set records are coherent, the ports of `DIVFREQ` and
`DIVSEL` are the function of their inputs, `DIVCFG`'s last result is in its record, selectors are in range. -/
def Obligations.StepKeepsTheMachineInvariant : Prop :=
  ∀ s t : State, s.Inv → step s = .next t → t.Inv

/-- The invariant holds after reset, for every valid parameter set. That the ports and the programmed selector are 0 there is the
model's choice (logs 2, 3, 8, 17). -/
def Obligations.ResetMeetsTheMachineInvariant : Prop :=
  ∀ P : Params, P.Valid → (State.resetFor P).Inv

/-- What reset leaves (10_state.md section 4): `NBUS` records, each unset, each bus Idle with its clock domain disabled, under the
given parameters. -/
def Obligations.ResetLeavesEveryRecordUnset : Prop :=
  (∀ P : Params, (State.resetFor P).params = P ∧ (State.resetFor P).nbus = P.nbus ∧
    ∀ bus ∈ (State.resetFor P).buses, bus.record.cachedClockHz = 0 ∧ bus.window = .idle ∧ bus.output = none) ∧
  State.reset = State.resetFor { w := 32, s := 4, maxDivider := 7, nbus := 1 }

/-- The parameters and the number of buses are fixed (00_scope.md section 4, 20_memory.md section 1): no step changes them. -/
def Obligations.StepKeepsTheParameters : Prop :=
  ∀ s t : State, step s = .next t → t.params = s.params

/-- Operations presented one a line run in order, each to completion, and a fault ends them (30_encoding.md section 4,
60_exceptions.md section 2): as many steps as there are bundles are the operations one after the other, and from the step that
raises on, the outcome is the fault, whatever lines stand after it. That the lines are a list in the state is the model's choice,
log 7. -/
def Obligations.StepsRunTheLinesInOrderUntilAFault : Prop :=
  (∀ (is : List Instr) (s : State) (rest : List Line), s.params.Valid → (∀ i ∈ is, i.wellFormed s.params = true) →
    s.pending = is.map (fun i => Line.bundle (encode s.params i)) ++ rest →
    runSteps is.length s = runInstrs is { s with pending := rest }) ∧
  (∀ (pre : List Instr) (i : Instr) (s u : State) (rest : List Line) (f : Fault) (k : Nat), s.params.Valid →
    (∀ j ∈ pre ++ [i], j.wellFormed s.params = true) →
    s.pending = (pre ++ [i]).map (fun j => Line.bundle (encode s.params j)) ++ rest →
    runInstrs pre { s with pending := rest } = .next u → exec i u = .fault f → pre.length < k → runSteps k s = .fault f)

/-! ### The acquire/release window and the hazards -/

/-- `acquire b, f` (30_encoding.md section 4, 42_divcfg.md section 3): on an idle configured bus with a nonzero request it
completes, looks the request up at the reported bus clock, programs the returned selector and opens the window; the divider of
the bus then runs with that selector. -/
def Obligations.AcquireProgramsTheReturnedSelector : Prop :=
  ∀ (s : State) (b f : Nat) (rest : List Line) (old : Bus), s.pending = .acquire b f :: rest → s.buses[b]? = some old →
    old.window = .idle → f ≠ 0 → Fits s.width f →
    ∃ t new, step s = .next t ∧ t.pending = rest ∧ t.buses[b]? = some new ∧
      new.record = old.record.lookup s.params old.clockHz f ∧ new.programmedSel = new.record.cachedDivider ∧
      new.window = .acquired ∧ new.clockHz = old.clockHz ∧
      new.output = some (FreqPorts.of new.record.cachedDivider old.clockHz) ∧
      ∀ b', b' ≠ b → t.buses[b']? = s.buses[b']?

/-- `release b` (42_divcfg.md section 3): the peripheral is neutral and disabled, no output clock, the cache untouched. Model's
choices: the neutral selector is free within the range (log 9), and a `release` of an Idle bus, which callers must not make and
the block cannot detect, has the same effect (log 20). -/
def Obligations.ReleaseKeepsTheCache : Prop :=
  ∀ (s : State) (b : Nat) (rest : List Line) (old : Bus), s.pending = .release b :: rest → s.buses[b]? = some old →
    ∃ t new, step s = .next t ∧ t.pending = rest ∧ t.buses[b]? = some new ∧ new.record = old.record ∧
      new.window = .idle ∧ new.output = none ∧ new.programmedSel = Config.neutralSel s.params ∧
      new.programmedSel ≤ s.maxDivider ∧ ∀ b', b' ≠ b → t.buses[b']? = s.buses[b']?

/-- `acquire` inside an open window has no meaning (70_reset_and_hazards.md section 3): refused under its own name, log 10. -/
def Obligations.ReprogrammingInsideAWindowIsRefused : Prop :=
  ∀ (s : State) (b f : Nat) (rest : List Line) (old : Bus), s.pending = .acquire b f :: rest → s.buses[b]? = some old →
    old.window = .acquired → Fits s.width f → step s = .refused (.reprogramInsideWindow b)

/-- `divact B, f` (30_encoding.md section 4): the computed actual clock is the output of the selector `DIVSEL` gives. That its two
operations are one step is the model's choice, log 21. -/
def Obligations.DivactComputesTheActualClock : Prop :=
  ∀ (s : State) (clkInHz reqHz : Nat) (rest : List Line), s.pending = .divact clkInHz reqHz :: rest →
    Fits s.width clkInHz → Fits s.width reqHz → reqHz ≠ 0 →
    ∃ t, step s = .next t ∧ t.sel.sel = selector s.params clkInHz reqHz ∧
      t.freq.outputHz = outputHz clkInHz (selector s.params clkInHz reqHz) ∧ t.buses = s.buses ∧ t.pending = rest

/-- A stale hit (70_reset_and_hazards.md section 3): a bus clock that changes between two windows leaves the cached selector, and
the divider then runs at the new clock over the old factor. -/
def Obligations.ChangedBusClockLeavesTheSelectorStale : Prop :=
  ∀ (s t u v : State) (b hz' f : Nat) (rest : List Line) (old new : Bus),
    s.pending = .acquire b f :: .release b :: .busClock b hz' :: .acquire b f :: rest → s.buses[b]? = some old →
    f ≠ old.record.cachedClockHz → step s = .next t → step t = .next u → step u = .next v →
    ∀ w, step v = .next w → w.buses[b]? = some new →
      new.output = some (FreqPorts.of (selector s.params old.clockHz f) hz') ∧ new.clockHz = hz'

/-- Requests of the form `B / 2^k` are met exactly (70_reset_and_hazards.md section 3, truncation): for `1 ≤ k ≤ MAX_DIVIDER + 1`
the selector is `k - 1` and the output clock is the request. -/
def Obligations.PowerOfTwoRequestsAreMetExactly : Prop :=
  ∀ (s t : State) (k reqHz : Nat), 1 ≤ k → k ≤ s.maxDivider + 1 → exec (.divsel (reqHz * 2 ^ k) reqHz) s = .next t →
    t.sel.sel = k - 1 ∧ outputHz (reqHz * 2 ^ k) t.sel.sel = (reqHz : ℚ)

/-- The caller's own check (70_reset_and_hazards.md section 3, slowest clock): `B ≤ f · 2^(MAX_DIVIDER+1)` rules the clamp out, and
where it fails every selector exceeds the request. -/
def Obligations.CallersCheckRulesOutTheClamp : Prop :=
  ∀ (s t : State) (clkInHz reqHz : Nat), exec (.divsel clkInHz reqHz) s = .next t →
    (clkInHz ≤ reqHz * 2 ^ (s.maxDivider + 1) → ¬ Clamped s.params clkInHz reqHz) ∧
    (reqHz * 2 ^ (s.maxDivider + 1) < clkInHz → t.sel.sel ≤ s.maxDivider ∧ Exceeds clkInHz t.sel.sel reqHz ∧
      ∀ m, m ≤ s.maxDivider → Exceeds clkInHz m reqHz)
end

