-- ==== Sys2Proof/Laws/Operands.lean ====
section
/-! SUPPORT. The arithmetic of the block: port widths, slices of a concatenation, powers of two, and the one characterisation of
the selector that the laws of 41_divsel.md rest on. -/

namespace Sys2Proof

theorem factorOf_eq (n : Nat) : factorOf n = 2 ^ (n + 1) := by simp [factorOf, Nat.shiftLeft_eq]

theorem ratioQ_eq (P : Params) (clkInHz reqHz : Nat) : ratioQ P clkInHz reqHz = clkInHz * 2 ^ P.s / (2 * reqHz) := by
  simp [ratioQ, Nat.shiftLeft_eq]

theorem lt_two_pow_portWidth (m : Nat) : m < 2 ^ portWidth m := Nat.lt_log2_self

theorem portWidth_le {m k : Nat} (hk : 1 ≤ k) (h : m < 2 ^ k) : portWidth m ≤ k := by
  rcases Nat.eq_zero_or_pos m with rfl | hm
  · simpa [portWidth] using hk
  · exact Nat.succ_le_of_lt ((Nat.log2_lt hm.ne').mpr h)

theorem Params.selw_pos (P : Params) : 1 ≤ P.selw := Nat.le_add_left _ _

theorem Params.busw_pos (P : Params) : 1 ≤ P.busw := Nat.le_add_left _ _

/-- A slice of a concatenation, at its top field. -/
theorem slice_high {w k a b : Nat} (hb : b < 2 ^ w) (hk : 1 ≤ k) (ha : a < 2 ^ k) :
    slice (a * 2 ^ w + b) (w + k - 1) w = a := by
  have hdiv : (a * 2 ^ w + b) / 2 ^ w = a := by
    rw [Nat.add_comm, Nat.add_mul_div_right _ _ (by positivity), Nat.div_eq_of_lt hb, Nat.zero_add]
  rw [slice, hdiv, show w + k - 1 - w + 1 = k by omega, Nat.mod_eq_of_lt ha]

/-- The low field of a concatenation. -/
theorem concat_mod {w a b : Nat} (hb : b < 2 ^ w) : (a * 2 ^ w + b) % 2 ^ w = b := by
  rw [Nat.add_comm, Nat.add_mul_mod_self_right, Nat.mod_eq_of_lt hb]

/-- A slice of a concatenation, at its lowest field. -/
theorem slice_low {w a b : Nat} (hw : 1 ≤ w) (hb : b < 2 ^ w) : slice (a * 2 ^ w + b) (w - 1) 0 = b := by
  rw [slice, pow_zero, Nat.div_one, show w - 1 - 0 + 1 = w by omega, concat_mod hb]

/-- Two fields side by side fit the two widths together. -/
theorem fits_append {k w a b : Nat} (ha : Fits k a) (hb : Fits w b) : Fits (k + w) (a * 2 ^ w + b) := by
  have : a + 1 ≤ 2 ^ k := ha
  calc a * 2 ^ w + b < (a + 1) * 2 ^ w := by rw [Nat.add_mul, Nat.one_mul]; exact Nat.add_lt_add_left hb _
    _ ≤ 2 ^ k * 2 ^ w := Nat.mul_le_mul_right _ this
    _ = 2 ^ (k + w) := (pow_add ..).symm

theorem two_pow_msb_le {v : Nat} (h : v ≠ 0) : 2 ^ msb v ≤ v := Nat.log2_self_le h

theorem lt_two_pow_msb_succ (v : Nat) : v < 2 ^ (msb v + 1) := Nat.lt_log2_self

/-- `is_pow2` says what its name says. -/
theorem isPow2_iff (v : Nat) : isPow2 v = true ↔ v = 2 ^ msb v := by
  unfold isPow2 msb
  rcases Nat.eq_zero_or_pos v with rfl | hv
  · simp
  · have hpow : (v &&& (v - 1) = 0) ↔ ∃ k, v = 2 ^ k := by
      rw [Nat.and_sub_one_eq_zero_iff_isPowerOfTwo hv.ne']; rfl
    have : decide (1 ≤ v) = true := decide_eq_true hv
    simp only [this, Bool.true_and, beq_iff_eq]
    rw [hpow]
    constructor
    · rintro ⟨k, rfl⟩; simp
    · intro h; exact ⟨_, h⟩

/-- Where the selector is below a bound: the one fact about the algorithm of 41_divsel.md rule R50 (threshold, highest bit,
round up). -/
theorem unclampedSel_le_iff (P : Params) (q k : Nat) : unclampedSel P q ≤ k ↔ q ≤ 2 ^ (P.s + k) := by
  unfold unclampedSel
  rw [Nat.shiftLeft_eq, Nat.one_mul]
  by_cases hq : q ≤ 2 ^ P.s
  · rw [if_pos hq]
    exact ⟨fun _ => hq.trans (Nat.pow_le_pow_right (by omega) (by omega)), fun _ => Nat.zero_le k⟩
  · rw [if_neg hq]
    have hq0 : q ≠ 0 := by rintro rfl; exact hq (Nat.zero_le _)
    have hlo := two_pow_msb_le hq0
    have hhi := lt_two_pow_msb_succ q
    have hs : P.s ≤ msb q := by
      by_contra h
      exact hq (hhi.le.trans (Nat.pow_le_pow_right (by omega) (by omega)))
    by_cases hp : isPow2 q = true
    · rw [if_pos hp, Nat.sub_le_iff_le_add, Nat.add_comm k]
      conv_rhs => rw [(isPow2_iff q).mp hp]
      exact (Nat.pow_le_pow_iff_right (by omega)).symm
    · rw [if_neg hp]
      have hne : 2 ^ msb q ≠ q := fun h => hp ((isPow2_iff q).mpr h.symm)
      constructor
      · intro h
        exact hhi.le.trans (Nat.pow_le_pow_right (by omega) (by omega))
      · intro h
        have : msb q < P.s + k :=
          (Nat.pow_lt_pow_iff_right (by omega)).mp (lt_of_lt_of_le (lt_of_le_of_ne hlo hne) h)
        omega

theorem selector_le (P : Params) (clkInHz reqHz : Nat) : selector P clkInHz reqHz ≤ P.maxDivider := Nat.min_le_right _ _

theorem fits_selw_of_le {P : Params} {n : Nat} (h : n ≤ P.maxDivider) : Fits P.selw n :=
  lt_of_le_of_lt h (lt_two_pow_portWidth _)

theorem selector_fits (P : Params) (clkInHz reqHz : Nat) : Fits P.selw (selector P clkInHz reqHz) :=
  fits_selw_of_le (selector_le P clkInHz reqHz)

theorem neutralSel_le (P : Params) : Config.neutralSel P ≤ P.maxDivider := Nat.min_le_right _ _

/-- The search for `k*` finds the least exponent from where it starts. -/
theorem leastFrom_spec (s q fuel k : Nat) (h : q ≤ 2 ^ (s + (k + fuel))) :
    q ≤ 2 ^ (s + leastFrom s q fuel k) ∧ ∀ j, k ≤ j → j < leastFrom s q fuel k → ¬ q ≤ 2 ^ (s + j) := by
  induction fuel generalizing k with
  | zero => exact ⟨by simpa [leastFrom] using h, fun j h₁ h₂ => absurd h₂ (by simp [leastFrom]; omega)⟩
  | succ fuel ih =>
    unfold leastFrom
    by_cases hk : q ≤ 2 ^ (s + k)
    · rw [if_pos hk]
      exact ⟨hk, fun j h₁ h₂ => absurd h₂ (by omega)⟩
    · rw [if_neg hk]
      obtain ⟨h₁, h₂⟩ := ih (k + 1) (by rwa [show k + 1 + fuel = k + (fuel + 1) by omega])
      refine ⟨h₁, fun j hj hlt => ?_⟩
      rcases Nat.eq_or_lt_of_le hj with rfl | hj'
      · exact hk
      · exact h₂ j hj' hlt

/-- `k*` is below a bound exactly where the ratio is: the same fact as for the unclamped selector. -/
theorem kStar_le_iff (P : Params) (clkInHz reqHz k : Nat) :
    kStar P clkInHz reqHz ≤ k ↔ ratioQ P clkInHz reqHz ≤ 2 ^ (P.s + k) := by
  obtain ⟨h₁, h₂⟩ := leastFrom_spec P.s (ratioQ P clkInHz reqHz) (Nat.log2 (ratioQ P clkInHz reqHz) + 1) 0
    (Nat.lt_log2_self.le.trans (Nat.pow_le_pow_right (by omega) (by omega)))
  constructor
  · intro h
    exact h₁.trans (Nat.pow_le_pow_right (by omega) (Nat.add_le_add_left h _))
  · intro h
    by_contra hlt
    exact h₂ k (Nat.zero_le k) (Nat.not_le.mp hlt) h

end Sys2Proof
end

