-- ==== Sys2Proof/Laws/Decode.lean ====
section
/-! SUPPORT. What the decoder does with a bundle that fits its ports, and what a decoded bundle must have been. -/

namespace Sys2Proof

theorem decode_fFreq {P : Params} {bits : Nat} (h : Fits (P.selw + P.w) bits) :
    decode P ⟨.fFreq, bits⟩ = .instr (.divfreq (slice bits (P.w + P.selw - 1) P.w) (slice bits (P.w - 1) 0)) := if_pos h

theorem decode_fSel {P : Params} {bits : Nat} (h : Fits (2 * P.w) bits) :
    decode P ⟨.fSel, bits⟩ = .instr (.divsel (slice bits (2 * P.w - 1) P.w) (slice bits (P.w - 1) 0)) := if_pos h

theorem decode_fCfg {P : Params} {bits : Nat} (h : Fits (1 + P.busw + 2 * P.w) bits) :
    decode P ⟨.fCfg, bits⟩ = .instr (.divcfg (slice bits (2 * P.w + P.busw) (2 * P.w + P.busw) == 1)
      (slice bits (2 * P.w + P.busw - 1) (2 * P.w)) (slice bits (2 * P.w - 1) P.w) (slice bits (P.w - 1) 0)) := if_pos h

theorem decode_selCode {P : Params} {bits : Nat} (h : Fits P.selw bits) :
    decode P ⟨.selCode, bits⟩ = decodeSelCode bits := if_pos h

theorem decode_tooWide {P : Params} {b : Bundle} (hf : ∀ n, b.format ≠ .other n) (h : ¬ Fits (b.format.width P) b.bits) :
    decode P b = .error (.tooWide b.format b.bits) := by
  obtain ⟨fmt, bits⟩ := b
  cases fmt with
  | other n => exact absurd rfl (hf n)
  | fFreq | fSel | fCfg | selCode => exact if_neg h

/-- A bundle that decodes fits its ports, and its fields are the instruction. -/
theorem decode_instr {P : Params} {b : Bundle} {i : Instr} (h : decode P b = .instr i) :
    Fits (b.format.width P) b.bits ∧ decodeFields P b = .instr i := by
  unfold decode at h
  split at h
  · cases h
  · split at h
    · exact ⟨‹_›, h⟩
    · cases h

/-- The decoder on the ports agrees with the decoder where that reads an instruction. -/
theorem decodeOnPorts_of_decode {P : Params} {clkInHz : Nat} {b : Bundle} {i : Instr} (h : decode P b = .instr i) :
    decodeOnPorts P clkInHz b = .instr i := by
  simp [decodeOnPorts, h]

/-- And otherwise it reads `DIVFREQ` on the present clock, from a selector code above the table's rows. -/
theorem decodeOnPorts_instr {P : Params} {clkInHz : Nat} {b : Bundle} {i : Instr} (h : decodeOnPorts P clkInHz b = .instr i) :
    decode P b = .instr i ∨ ∃ n, b = ⟨.selCode, n⟩ ∧ Fits P.selw n ∧ i = .divfreq n clkInHz := by
  unfold decodeOnPorts at h
  split at h
  · rename_i n hn
    cases h
    obtain ⟨fmt, bits⟩ := b
    cases fmt with
    | selCode =>
      by_cases hf : Fits P.selw bits
      · rw [decode_selCode hf] at hn
        unfold decodeSelCode at hn
        split at hn <;> cases hn
        exact .inr ⟨_, rfl, hf, rfl⟩
      · rw [decode_tooWide (by simp) hf] at hn
        cases hn
    | fFreq =>
      by_cases hf : Fits (P.selw + P.w) bits
      · rw [decode_fFreq hf] at hn
        cases hn
      · rw [decode_tooWide (by simp) hf] at hn
        cases hn
    | fSel =>
      by_cases hf : Fits (2 * P.w) bits
      · rw [decode_fSel hf] at hn
        cases hn
      · rw [decode_tooWide (by simp) hf] at hn
        cases hn
    | fCfg =>
      by_cases hf : Fits (1 + P.busw + 2 * P.w) bits
      · rw [decode_fCfg hf] at hn
        cases hn
      · rw [decode_tooWide (by simp) hf] at hn
        cases hn
    | other n => cases hn
  · exact .inl h

theorem slice_lt (v hi lo : Nat) : slice v hi lo < 2 ^ (hi - lo + 1) := Nat.mod_lt _ (by positivity)

end Sys2Proof
end

