-- ==== Sys2Proof/Laws/State.lean ====
section
/-! SUPPORT. One lemma per field per update of `State`, so that no proof unfolds a record update, and the laws of reading a
bus after writing one. -/

namespace Sys2Proof.Machine

@[simp] theorem State.modifyBus_width (b : Nat) (f : Bus → Bus) (s : State) : (s.modifyBus b f).width = s.width := rfl
@[simp] theorem State.modifyBus_shift (b : Nat) (f : Bus → Bus) (s : State) : (s.modifyBus b f).shift = s.shift := rfl
@[simp] theorem State.modifyBus_maxDivider (b : Nat) (f : Bus → Bus) (s : State) : (s.modifyBus b f).maxDivider = s.maxDivider := rfl
@[simp] theorem State.modifyBus_buses (b : Nat) (f : Bus → Bus) (s : State) : (s.modifyBus b f).buses = s.buses.modify b f := rfl
@[simp] theorem State.modifyBus_freq (b : Nat) (f : Bus → Bus) (s : State) : (s.modifyBus b f).freq = s.freq := rfl
@[simp] theorem State.modifyBus_sel (b : Nat) (f : Bus → Bus) (s : State) : (s.modifyBus b f).sel = s.sel := rfl
@[simp] theorem State.modifyBus_cfg (b : Nat) (f : Bus → Bus) (s : State) : (s.modifyBus b f).cfg = s.cfg := rfl
@[simp] theorem State.modifyBus_pending (b : Nat) (f : Bus → Bus) (s : State) : (s.modifyBus b f).pending = s.pending := rfl

@[simp] theorem State.setFreq_width (p : FreqPorts) (s : State) : (s.setFreq p).width = s.width := rfl
@[simp] theorem State.setFreq_shift (p : FreqPorts) (s : State) : (s.setFreq p).shift = s.shift := rfl
@[simp] theorem State.setFreq_maxDivider (p : FreqPorts) (s : State) : (s.setFreq p).maxDivider = s.maxDivider := rfl
@[simp] theorem State.setFreq_buses (p : FreqPorts) (s : State) : (s.setFreq p).buses = s.buses := rfl
@[simp] theorem State.setFreq_freq (p : FreqPorts) (s : State) : (s.setFreq p).freq = p := rfl
@[simp] theorem State.setFreq_sel (p : FreqPorts) (s : State) : (s.setFreq p).sel = s.sel := rfl
@[simp] theorem State.setFreq_cfg (p : FreqPorts) (s : State) : (s.setFreq p).cfg = s.cfg := rfl
@[simp] theorem State.setFreq_pending (p : FreqPorts) (s : State) : (s.setFreq p).pending = s.pending := rfl
@[simp] theorem State.setFreq_params (p : FreqPorts) (s : State) : (s.setFreq p).params = s.params := rfl
@[simp] theorem State.setFreq_recordOf (p : FreqPorts) (s : State) (i : Nat) : (s.setFreq p).recordOf i = s.recordOf i := rfl

@[simp] theorem State.setSel_width (p : SelPorts) (s : State) : (s.setSel p).width = s.width := rfl
@[simp] theorem State.setSel_shift (p : SelPorts) (s : State) : (s.setSel p).shift = s.shift := rfl
@[simp] theorem State.setSel_maxDivider (p : SelPorts) (s : State) : (s.setSel p).maxDivider = s.maxDivider := rfl
@[simp] theorem State.setSel_buses (p : SelPorts) (s : State) : (s.setSel p).buses = s.buses := rfl
@[simp] theorem State.setSel_freq (p : SelPorts) (s : State) : (s.setSel p).freq = s.freq := rfl
@[simp] theorem State.setSel_sel (p : SelPorts) (s : State) : (s.setSel p).sel = p := rfl
@[simp] theorem State.setSel_cfg (p : SelPorts) (s : State) : (s.setSel p).cfg = s.cfg := rfl
@[simp] theorem State.setSel_pending (p : SelPorts) (s : State) : (s.setSel p).pending = s.pending := rfl
@[simp] theorem State.setSel_params (p : SelPorts) (s : State) : (s.setSel p).params = s.params := rfl
@[simp] theorem State.setSel_recordOf (p : SelPorts) (s : State) (i : Nat) : (s.setSel p).recordOf i = s.recordOf i := rfl

@[simp] theorem State.setCfg_width (p : CfgPorts) (s : State) : (s.setCfg p).width = s.width := rfl
@[simp] theorem State.setCfg_shift (p : CfgPorts) (s : State) : (s.setCfg p).shift = s.shift := rfl
@[simp] theorem State.setCfg_maxDivider (p : CfgPorts) (s : State) : (s.setCfg p).maxDivider = s.maxDivider := rfl
@[simp] theorem State.setCfg_buses (p : CfgPorts) (s : State) : (s.setCfg p).buses = s.buses := rfl
@[simp] theorem State.setCfg_freq (p : CfgPorts) (s : State) : (s.setCfg p).freq = s.freq := rfl
@[simp] theorem State.setCfg_sel (p : CfgPorts) (s : State) : (s.setCfg p).sel = s.sel := rfl
@[simp] theorem State.setCfg_cfg (p : CfgPorts) (s : State) : (s.setCfg p).cfg = p := rfl
@[simp] theorem State.setCfg_pending (p : CfgPorts) (s : State) : (s.setCfg p).pending = s.pending := rfl
@[simp] theorem State.setCfg_params (p : CfgPorts) (s : State) : (s.setCfg p).params = s.params := rfl
@[simp] theorem State.setCfg_recordOf (p : CfgPorts) (s : State) (i : Nat) : (s.setCfg p).recordOf i = s.recordOf i := rfl

@[simp] theorem State.setPending_width (ls : List Line) (s : State) : (s.setPending ls).width = s.width := rfl
@[simp] theorem State.setPending_shift (ls : List Line) (s : State) : (s.setPending ls).shift = s.shift := rfl
@[simp] theorem State.setPending_maxDivider (ls : List Line) (s : State) : (s.setPending ls).maxDivider = s.maxDivider := rfl
@[simp] theorem State.setPending_buses (ls : List Line) (s : State) : (s.setPending ls).buses = s.buses := rfl
@[simp] theorem State.setPending_freq (ls : List Line) (s : State) : (s.setPending ls).freq = s.freq := rfl
@[simp] theorem State.setPending_sel (ls : List Line) (s : State) : (s.setPending ls).sel = s.sel := rfl
@[simp] theorem State.setPending_cfg (ls : List Line) (s : State) : (s.setPending ls).cfg = s.cfg := rfl
@[simp] theorem State.setPending_pending (ls : List Line) (s : State) : (s.setPending ls).pending = ls := rfl
@[simp] theorem State.setPending_params (ls : List Line) (s : State) : (s.setPending ls).params = s.params := rfl
@[simp] theorem State.setPending_recordOf (ls : List Line) (s : State) (i : Nat) : (s.setPending ls).recordOf i = s.recordOf i := rfl

@[simp] theorem State.modifyBus_params (b : Nat) (f : Bus → Bus) (s : State) : (s.modifyBus b f).params = s.params := by
  simp [State.params]

@[simp] theorem State.params_w (s : State) : s.params.w = s.width := rfl
@[simp] theorem State.params_s (s : State) : s.params.s = s.shift := rfl
@[simp] theorem State.params_maxDivider (s : State) : s.params.maxDivider = s.maxDivider := rfl
@[simp] theorem State.params_nbus (s : State) : s.params.nbus = s.buses.length := rfl

/-- Reading the bus that was changed. -/
theorem State.modifyBus_getElem?_self (b : Nat) (f : Bus → Bus) (s : State) :
    (s.modifyBus b f).buses[b]? = (s.buses[b]?).map f := by
  simp

/-- Reading any other bus. -/
theorem State.modifyBus_getElem?_ne (b i : Nat) (f : Bus → Bus) (s : State) (h : i ≠ b) :
    (s.modifyBus b f).buses[i]? = s.buses[i]? := by
  simp [Ne.symm h]

/-- The record of the bus that was changed. -/
theorem State.modifyBus_recordOf_self (b : Nat) (f : Bus → Bus) (s : State) :
    (s.modifyBus b f).recordOf b = (s.buses[b]?).map fun bus => (f bus).record := by
  simp [State.recordOf, Function.comp_def]

/-- The record of any other bus. -/
theorem State.modifyBus_recordOf_ne (b i : Nat) (f : Bus → Bus) (s : State) (h : i ≠ b) :
    (s.modifyBus b f).recordOf i = s.recordOf i := by
  simp only [State.recordOf, State.modifyBus_getElem?_ne b i f s h]

/-- A change of a bus that keeps its record changes no record. -/
theorem State.modifyBus_recordOf_of_keeps (b i : Nat) (f : Bus → Bus) (s : State) (hf : ∀ bus, (f bus).record = bus.record) :
    (s.modifyBus b f).recordOf i = s.recordOf i := by
  by_cases h : i = b
  · subst h
    simp [State.recordOf, hf, Function.comp_def]
  · exact State.modifyBus_recordOf_ne b i f s h

/-- A bus of the changed array is a bus of the array, or the changed one. -/
theorem State.mem_modifyBus {b : Nat} {f : Bus → Bus} {s : State} {bus : Bus} (h : bus ∈ (s.modifyBus b f).buses) :
    bus ∈ s.buses ∨ ∃ old, s.buses[b]? = some old ∧ bus = f old := by
  obtain ⟨i, hi⟩ := List.mem_iff_getElem?.mp h
  by_cases hib : i = b
  · subst hib
    rw [State.modifyBus_getElem?_self] at hi
    obtain ⟨old, ho, rfl⟩ := Option.map_eq_some_iff.mp hi
    exact .inr ⟨old, ho, rfl⟩
  · rw [State.modifyBus_getElem?_ne b i f s hib] at hi
    exact .inl (List.mem_iff_getElem?.mpr ⟨i, hi⟩)

@[simp] theorem Bus.lookup_record (P : Params) (clkInHz reqHz : Nat) (bus : Bus) :
    (bus.lookup P clkInHz reqHz).record = bus.record.lookup P clkInHz reqHz := rfl
@[simp] theorem Bus.lookup_window (P : Params) (clkInHz reqHz : Nat) (bus : Bus) :
    (bus.lookup P clkInHz reqHz).window = bus.window := rfl
@[simp] theorem Bus.lookup_programmedSel (P : Params) (clkInHz reqHz : Nat) (bus : Bus) :
    (bus.lookup P clkInHz reqHz).programmedSel = bus.programmedSel := rfl
@[simp] theorem Bus.lookup_clockHz (P : Params) (clkInHz reqHz : Nat) (bus : Bus) :
    (bus.lookup P clkInHz reqHz).clockHz = bus.clockHz := rfl
@[simp] theorem Bus.program_record (n : Nat) (bus : Bus) : (bus.program n).record = bus.record := rfl
@[simp] theorem Bus.program_clockHz (n : Nat) (bus : Bus) : (bus.program n).clockHz = bus.clockHz := rfl
@[simp] theorem Bus.release_record (P : Params) (bus : Bus) : (bus.release P).record = bus.record := rfl
@[simp] theorem Bus.release_clockHz (P : Params) (bus : Bus) : (bus.release P).clockHz = bus.clockHz := rfl
@[simp] theorem Bus.report_record (hz : Nat) (bus : Bus) : (bus.report hz).record = bus.record := rfl
@[simp] theorem Bus.report_window (hz : Nat) (bus : Bus) : (bus.report hz).window = bus.window := rfl
@[simp] theorem Bus.report_programmedSel (hz : Nat) (bus : Bus) : (bus.report hz).programmedSel = bus.programmedSel := rfl

end Sys2Proof.Machine
end

