-- ==== Sys2Proof/Laws/Ops.lean ====
section
/-! SUPPORT. One lemma for each shared operation and each meaning that says once everything it can do; later proofs cite these
and do not unfold the machine. -/

namespace Sys2Proof.Machine

theorem require_next {c : Bool} {f : Fault} {k : Result} {t : State} (h : require c f k = .next t) : c = true ∧ k = .next t := by
  cases c
  · cases h
  · exact ⟨rfl, h⟩

@[simp] theorem require_true (f : Fault) (k : Result) : require true f k = k := rfl
@[simp] theorem require_false (f : Fault) (k : Result) : require false f k = .fault f := rfl

/-- The ports of `DIVFREQ` as the arithmetic of 40_divfreq.md rules R40 to R42. -/
theorem FreqPorts.of_eq (n clkInHz : Nat) : FreqPorts.of n clkInHz =
    { sel := n, clkInHz := clkInHz, factor := 2 ^ (n + 1), clkOutHz := clkInHz / 2 ^ (n + 1),
      clkOutRem := clkInHz % 2 ^ (n + 1) } := by
  simp [FreqPorts.of, factorOf_eq, Nat.shiftRight_eq_div_pow, slice]

/-- Everything the evaluation of the divider can do. -/
theorem evalFreq_eq (n clkInHz : Nat) (s : State) : evalFreq n clkInHz s =
    if n ≤ s.maxDivider then .next (s.setFreq (FreqPorts.of n clkInHz)) else .fault (.selectorRange n) := by
  by_cases h : n ≤ s.maxDivider <;> simp [evalFreq, h]

theorem evalFreq_next {n clkInHz : Nat} {s t : State} (h : evalFreq n clkInHz s = .next t) :
    n ≤ s.maxDivider ∧ t = s.setFreq (FreqPorts.of n clkInHz) := by
  rw [evalFreq_eq] at h
  split at h
  · cases h; exact ⟨‹_›, rfl⟩
  · cases h

theorem driveSelCode_next {n : Nat} {s t : State} (h : driveSelCode n s = .next t) :
    n ≤ s.maxDivider ∧ t = s.setFreq (FreqPorts.of n s.freq.clkInHz) := evalFreq_next h

theorem execDivsel_next {clkInHz reqHz : Nat} {s t : State} (h : execDivsel clkInHz reqHz s = .next t) :
    reqHz ≠ 0 ∧ t = s.setSel { clkInHz := clkInHz, reqHz := reqHz, sel := selector s.params clkInHz reqHz } := by
  obtain ⟨h₁, h₂⟩ := require_next h
  cases h₂
  exact ⟨of_decide_eq_true h₁, rfl⟩

/-- The state a completed `DIVCFG` leaves. -/
def divcfgState (bus clkInHz reqHz : Nat) (old : Bus) (s : State) : State :=
  (s.modifyBus bus (Bus.lookup s.params clkInHz reqHz)).setCfg
    { clkEn := true, bus := bus, clkInHz := clkInHz, reqHz := reqHz,
      sel := (old.record.lookup s.params clkInHz reqHz).cachedDivider }

theorem execDivcfg_next {clkEn : Bool} {bus clkInHz reqHz : Nat} {s t : State}
    (h : execDivcfg clkEn bus clkInHz reqHz s = .next t) :
    ∃ old, s.buses[bus]? = some old ∧ clkEn = true ∧ reqHz ≠ 0 ∧ t = divcfgState bus clkInHz reqHz old s := by
  unfold execDivcfg at h
  split at h
  · cases h
  · rename_i old hold
    obtain ⟨h₁, h₂⟩ := require_next h
    obtain ⟨h₃, h₄⟩ := require_next h₂
    subst h₁
    cases h₄
    exact ⟨old, hold, rfl, of_decide_eq_true h₃, rfl⟩

/-- A hit keeps the record. -/
theorem BusRecord.lookup_hit (P : Params) (clkInHz : Nat) (r : BusRecord) : r.lookup P clkInHz r.cachedClockHz = r := by
  simp [BusRecord.lookup]

/-- A miss writes both fields. -/
theorem BusRecord.lookup_miss {P : Params} {clkInHz reqHz : Nat} {r : BusRecord} (h : reqHz ≠ r.cachedClockHz) :
    r.lookup P clkInHz reqHz = { cachedClockHz := reqHz, cachedDivider := selector P clkInHz reqHz } := by
  simp [BusRecord.lookup, h]

/-- Hit or miss, the request is cached. -/
@[simp] theorem BusRecord.lookup_cachedClockHz (P : Params) (clkInHz reqHz : Nat) (r : BusRecord) :
    (r.lookup P clkInHz reqHz).cachedClockHz = reqHz := by
  unfold BusRecord.lookup
  split
  · rfl
  · simp_all

/-- Looking the same request up again, at whatever bus clock, changes nothing. -/
theorem BusRecord.lookup_again (P : Params) (clkInHz clkInHz' reqHz : Nat) (r : BusRecord) :
    (r.lookup P clkInHz reqHz).lookup P clkInHz' reqHz = r.lookup P clkInHz reqHz := by
  have h := BusRecord.lookup_cachedClockHz P clkInHz reqHz r
  generalize r.lookup P clkInHz reqHz = q at h ⊢
  subst h
  exact BusRecord.lookup_hit P clkInHz' q

/-- The selector a lookup leaves is in range, where the record was coherent. -/
theorem BusRecord.lookup_cachedDivider_le {P : Params} {clkInHz reqHz : Nat} {r : BusRecord} (hr : RecordOk P r)
    (h : reqHz ≠ 0) : (r.lookup P clkInHz reqHz).cachedDivider ≤ P.maxDivider := by
  by_cases hm : reqHz = r.cachedClockHz
  · subst hm
    obtain ⟨hz, _, hd⟩ := hr.coherent h
    rw [BusRecord.lookup_hit, hd]
    exact selector_le P hz _
  · rw [BusRecord.lookup_miss hm]
    exact selector_le P clkInHz reqHz

/-- Everything a completed instruction can have done. -/
theorem exec_next {i : Instr} {s t : State} (h : exec i s = .next t) :
    (∃ n clkInHz, n ≤ s.maxDivider ∧ (i = .divfreq n clkInHz ∨ clkInHz = s.freq.clkInHz) ∧
      t = s.setFreq (FreqPorts.of n clkInHz) ∧ ∀ en b B f, i ≠ .divcfg en b B f) ∨
    (∃ clkInHz reqHz, i = .divsel clkInHz reqHz ∧ reqHz ≠ 0 ∧
      t = s.setSel { clkInHz := clkInHz, reqHz := reqHz, sel := selector s.params clkInHz reqHz }) ∨
    (∃ bus clkInHz reqHz old, i = .divcfg true bus clkInHz reqHz ∧ s.buses[bus]? = some old ∧ reqHz ≠ 0 ∧
      t = divcfgState bus clkInHz reqHz old s) := by
  cases i with
  | divfreq n clkInHz =>
    obtain ⟨h₁, h₂⟩ := evalFreq_next h
    exact .inl ⟨n, clkInHz, h₁, .inl rfl, h₂, by simp⟩
  | divsel clkInHz reqHz =>
    obtain ⟨h₁, h₂⟩ := execDivsel_next h
    exact .inr (.inl ⟨clkInHz, reqHz, rfl, h₁, h₂⟩)
  | divcfg en bus clkInHz reqHz =>
    obtain ⟨old, h₁, rfl, h₂, h₃⟩ := execDivcfg_next h
    exact .inr (.inr ⟨bus, clkInHz, reqHz, old, rfl, h₁, h₂, h₃⟩)
  | sel0 => exact .inl ⟨0, _, (@driveSelCode_next 0 s t h).1, .inr rfl, (@driveSelCode_next 0 s t h).2, by simp⟩
  | sel1 => exact .inl ⟨1, _, (@driveSelCode_next 1 s t h).1, .inr rfl, (@driveSelCode_next 1 s t h).2, by simp⟩
  | sel2 => exact .inl ⟨2, _, (@driveSelCode_next 2 s t h).1, .inr rfl, (@driveSelCode_next 2 s t h).2, by simp⟩
  | sel3 => exact .inl ⟨3, _, (@driveSelCode_next 3 s t h).1, .inr rfl, (@driveSelCode_next 3 s t h).2, by simp⟩
  | sel4 => exact .inl ⟨4, _, (@driveSelCode_next 4 s t h).1, .inr rfl, (@driveSelCode_next 4 s t h).2, by simp⟩
  | sel5 => exact .inl ⟨5, _, (@driveSelCode_next 5 s t h).1, .inr rfl, (@driveSelCode_next 5 s t h).2, by simp⟩
  | sel6 => exact .inl ⟨6, _, (@driveSelCode_next 6 s t h).1, .inr rfl, (@driveSelCode_next 6 s t h).2, by simp⟩
  | sel7 => exact .inl ⟨7, _, (@driveSelCode_next 7 s t h).1, .inr rfl, (@driveSelCode_next 7 s t h).2, by simp⟩

theorem runCall_next {l : Line} {s t : State} {k : Result} (h : runCall l s k = .next t) :
    l.wellFormed s.params = true ∧ k = .next t := by
  unfold runCall at h
  split at h
  · exact ⟨‹_›, h⟩
  · cases h

theorem runBundle_next {b : Bundle} {s t : State} (h : runBundle b s = .next t) :
    ∃ i, decodeOnPorts s.params s.freq.clkInHz b = .instr i ∧ exec i s = .next t := by
  unfold runBundle at h
  split at h
  · exact ⟨_, ‹_›, h⟩
  · cases h

theorem runDivact_next {clkInHz reqHz : Nat} {s t : State} (h : runDivact clkInHz reqHz s = .next t) :
    ∃ u, execDivsel clkInHz reqHz s = .next u ∧ execDivfreq u.sel.sel clkInHz u = .next t := by
  unfold runDivact at h
  split at h
  · exact ⟨_, ‹_›, h⟩
  · rename_i hn
    exact absurd h (hn t)

theorem runAcquire_next {bus reqHz : Nat} {s t : State} (h : runAcquire bus reqHz s = .next t) :
    ∃ old u, s.buses[bus]? = some old ∧ old.window = .idle ∧ execDivcfg true bus old.clockHz reqHz s = .next u ∧
      t = u.modifyBus bus (Bus.program u.cfg.sel) := by
  unfold runAcquire at h
  split at h
  · cases h
  · rename_i old hold
    split at h
    · cases h
    · split at h
      · cases h
        exact ⟨old, _, hold, ‹_›, ‹_›, rfl⟩
      · rename_i hn
        exact absurd h (hn t)

theorem runRelease_next {bus : Nat} {s t : State} (h : runRelease bus s = .next t) :
    ∃ old, s.buses[bus]? = some old ∧ t = s.modifyBus bus (Bus.release s.params) := by
  unfold runRelease at h
  split at h
  · cases h
  · cases h
    exact ⟨_, ‹_›, rfl⟩

theorem runBusClock_next {bus hz : Nat} {s t : State} (h : runBusClock bus hz s = .next t) :
    ∃ old, s.buses[bus]? = some old ∧ t = s.modifyBus bus (Bus.report hz) := by
  unfold runBusClock at h
  split at h
  · cases h
  · cases h
    exact ⟨_, ‹_›, rfl⟩

/-- With nothing presented nothing happens. -/
theorem step_nil {s : State} (h : s.pending = []) : step s = .next s := by
  unfold step
  rw [h]

/-- A step runs the oldest pending line, the rest still pending. -/
theorem step_cons {s : State} {l : Line} {rest : List Line} (h : s.pending = l :: rest) :
    step s = runLine l (s.setPending rest) := by
  unfold step
  rw [h]

/-- Everything a step can have run. -/
theorem step_next {s t : State} (h : step s = .next t) :
    (s.pending = [] ∧ t = s) ∨
    ∃ l rest, s.pending = l :: rest ∧
      ((∃ b i, l = .bundle b ∧ decodeOnPorts s.params s.freq.clkInHz b = .instr i ∧ exec i (s.setPending rest) = .next t) ∨
      (l.wellFormed s.params = true ∧
        ((∃ clkInHz reqHz, l = .divact clkInHz reqHz ∧ runDivact clkInHz reqHz (s.setPending rest) = .next t) ∨
        (∃ bus reqHz, l = .acquire bus reqHz ∧ runAcquire bus reqHz (s.setPending rest) = .next t) ∨
        (∃ bus, l = .release bus ∧ runRelease bus (s.setPending rest) = .next t) ∨
        (∃ bus hz, l = .busClock bus hz ∧ runBusClock bus hz (s.setPending rest) = .next t)))) := by
  unfold step at h
  split at h
  · cases h
    exact .inl ⟨‹_›, rfl⟩
  · rename_i l rest hp
    refine .inr ⟨l, rest, hp, ?_⟩
    cases l with
    | bundle b =>
      obtain ⟨i, h₁, h₂⟩ := runBundle_next h
      exact .inl ⟨b, i, rfl, h₁, h₂⟩
    | divact clkInHz reqHz =>
      obtain ⟨h₁, h₂⟩ := runCall_next h
      exact .inr ⟨h₁, .inl ⟨_, _, rfl, h₂⟩⟩
    | acquire bus reqHz =>
      obtain ⟨h₁, h₂⟩ := runCall_next h
      exact .inr ⟨h₁, .inr (.inl ⟨_, _, rfl, h₂⟩)⟩
    | release bus =>
      obtain ⟨h₁, h₂⟩ := runCall_next h
      exact .inr ⟨h₁, .inr (.inr (.inl ⟨_, rfl, h₂⟩))⟩
    | busClock bus hz =>
      obtain ⟨h₁, h₂⟩ := runCall_next h
      exact .inr ⟨h₁, .inr (.inr (.inr ⟨_, _, rfl, h₂⟩))⟩

/-- The records after a completed `DIVCFG`. -/
theorem divcfgState_recordOf {bus clkInHz reqHz : Nat} {old : Bus} {s : State} (hold : s.buses[bus]? = some old) (b : Nat) :
    (divcfgState bus clkInHz reqHz old s).recordOf b =
      if b = bus then some (old.record.lookup s.params clkInHz reqHz) else s.recordOf b := by
  by_cases h : b = bus
  · subst h
    simp [divcfgState, State.modifyBus_recordOf_self, hold]
  · simp [divcfgState, State.modifyBus_recordOf_ne _ _ _ _ h, h]

/-- The bus of a completed `DIVCFG`. -/
theorem divcfgState_getElem?_self {bus clkInHz reqHz : Nat} {old : Bus} {s : State} (hold : s.buses[bus]? = some old) :
    (divcfgState bus clkInHz reqHz old s).buses[bus]? = some (old.lookup s.params clkInHz reqHz) := by
  rw [divcfgState, State.setCfg_buses, State.modifyBus_getElem?_self, hold, Option.map_some]

/-- Any other bus. -/
theorem divcfgState_getElem?_ne {bus clkInHz reqHz b : Nat} {old : Bus} {s : State} (h : b ≠ bus) :
    (divcfgState bus clkInHz reqHz old s).buses[b]? = s.buses[b]? := by
  rw [divcfgState, State.setCfg_buses, State.modifyBus_getElem?_ne _ _ _ _ h]

@[simp] theorem divcfgState_params (bus clkInHz reqHz : Nat) (old : Bus) (s : State) :
    (divcfgState bus clkInHz reqHz old s).params = s.params := by
  simp [divcfgState]

/-- No instruction changes the parameters. -/
theorem exec_params {i : Instr} {s t : State} (h : exec i s = .next t) : t.params = s.params := by
  obtain ⟨_, _, _, _, rfl, _⟩ | ⟨_, _, _, _, rfl⟩ | ⟨_, _, _, _, _, _, _, rfl⟩ := exec_next h <;> simp

/-- An instruction neither reads nor writes the lines to come. -/
theorem exec_setPending (i : Instr) (ls : List Line) (s : State) : exec i (s.setPending ls) =
    match exec i s with
    | .next t => .next (t.setPending ls)
    | r => r := by
  have hfreq : ∀ n clkInHz, evalFreq n clkInHz (s.setPending ls) =
      match evalFreq n clkInHz s with
      | .next t => .next (t.setPending ls)
      | r => r := by
    intro n clkInHz
    rw [evalFreq_eq, evalFreq_eq]
    by_cases h : n ≤ s.maxDivider <;> simp [h, State.setFreq, State.setPending]
  cases i with
  | divfreq n clkInHz => exact hfreq n clkInHz
  | divsel clkInHz reqHz => by_cases h : reqHz = 0 <;> simp [exec, execDivsel, h, State.setSel, State.setPending, State.params]
  | divcfg en bus clkInHz reqHz =>
    simp only [exec, execDivcfg, State.setPending_buses]
    cases s.buses[bus]? with
    | none => rfl
    | some old =>
      cases en with
      | false => rfl
      | true =>
        by_cases h : reqHz = 0
        · simp [h]
        · simp only [h, ne_eq, not_false_eq_true, decide_true, require_true]
          rfl
  | sel0 => exact hfreq 0 s.freq.clkInHz
  | sel1 => exact hfreq 1 s.freq.clkInHz
  | sel2 => exact hfreq 2 s.freq.clkInHz
  | sel3 => exact hfreq 3 s.freq.clkInHz
  | sel4 => exact hfreq 4 s.freq.clkInHz
  | sel5 => exact hfreq 5 s.freq.clkInHz
  | sel6 => exact hfreq 6 s.freq.clkInHz
  | sel7 => exact hfreq 7 s.freq.clkInHz

/-- A step on a bundle that decodes runs the instruction read. -/
theorem step_bundle {s : State} {b : Bundle} {rest : List Line} {i : Instr} (hp : s.pending = .bundle b :: rest)
    (h : decode s.params b = .instr i) : step s = exec i (s.setPending rest) := by
  rw [step_cons hp]
  show runBundle b (s.setPending rest) = _
  unfold runBundle
  rw [State.setPending_params, State.setPending_freq, decodeOnPorts_of_decode h]

end Sys2Proof.Machine
end

