-- ==== Sys2Proof/Laws/PerInstr.lean ====
section
/-! SUPPORT. Lemmas made per instruction: the family `EncodeFits`, the bundle of a well-formed instruction fits its ports. -/

namespace Sys2Proof.Laws.EncodeFits

/-- The bits of the encoded instruction fit the ports of its format (30_encoding.md rule R35). -/
def Statement (i : Instr) : Prop :=
  ∀ P : Params, i.wellFormed P = true → Fits ((encode P i).format.width P) (encode P i).bits

theorem divfreq (sel clkInHz : Nat) : Statement (.divfreq sel clkInHz) := by
  intro P h
  simp only [Instr.wellFormed, Bool.and_eq_true, decide_eq_true_eq] at h
  exact fits_append h.1 h.2

theorem divsel (clkInHz reqHz : Nat) : Statement (.divsel clkInHz reqHz) := by
  intro P h
  simp only [Instr.wellFormed, Bool.and_eq_true, decide_eq_true_eq] at h
  change Fits (2 * P.w) _
  rw [Nat.two_mul]
  exact fits_append h.1 h.2

theorem divcfg (clkEn : Bool) (bus clkInHz reqHz : Nat) : Statement (.divcfg clkEn bus clkInHz reqHz) := by
  intro P h
  simp only [Instr.wellFormed, Bool.and_eq_true, decide_eq_true_eq] at h
  have hen : Fits 1 clkEn.toNat := Bool.toNat_lt clkEn
  change Fits (1 + P.busw + 2 * P.w) _
  rw [Nat.two_mul, ← Nat.add_assoc]
  exact fits_append (fits_append (fits_append hen h.1.1) h.1.2) h.2

theorem sel0 : Statement .sel0 := fun _ h => of_decide_eq_true h
theorem sel1 : Statement .sel1 := fun _ h => of_decide_eq_true h
theorem sel2 : Statement .sel2 := fun _ h => of_decide_eq_true h
theorem sel3 : Statement .sel3 := fun _ h => of_decide_eq_true h
theorem sel4 : Statement .sel4 := fun _ h => of_decide_eq_true h
theorem sel5 : Statement .sel5 := fun _ h => of_decide_eq_true h
theorem sel6 : Statement .sel6 := fun _ h => of_decide_eq_true h
theorem sel7 : Statement .sel7 := fun _ h => of_decide_eq_true h

end Sys2Proof.Laws.EncodeFits
end

