-- ==== Sys2Proof/Machine/Text.lean ====
section
/-! DEFINITION. The line text of 30_encoding.md rules R36 and R38: mnemonics in lower case, operands separated by commas, numbers
decimal (digits may be grouped with `_`) or hexadecimal with the prefix `0x`, a comment from `;` to the end of the line, one
operation a line. Texts are lists of characters. -/

namespace Sys2Proof.Text

/-- Put a lexeme, collected in reverse, before the lexemes after it. -/
def flush (rev : List Char) (rest : List (List Char)) : List (List Char) :=
  if rev.isEmpty then rest else rev.reverse :: rest

/-- The lexemes of one line: words, numbers and commas; a comment runs from `;` to the end of the line. -/
def lexemes : List Char → List Char → List (List Char)
  | [], rev => flush rev []
  | c :: cs, rev =>
    if c = ';' then flush rev []
    else if c = ' ' ∨ c = '\t' ∨ c = '\r' then flush rev (lexemes cs [])
    else if c = ',' then flush rev ([','] :: lexemes cs [])
    else lexemes cs (c :: rev)

/-- The value of a digit in a base up to 16. -/
def digit (base : Nat) (c : Char) : Option Nat :=
  let v :=
    if '0'.toNat ≤ c.toNat ∧ c.toNat ≤ '9'.toNat then c.toNat - '0'.toNat
    else if 'a'.toNat ≤ c.toNat ∧ c.toNat ≤ 'f'.toNat then c.toNat - 'a'.toNat + 10
    else if 'A'.toNat ≤ c.toNat ∧ c.toNat ≤ 'F'.toNat then c.toNat - 'A'.toNat + 10
    else 16
  if v < base then some v else none

/-- The value of a run of digits, `_` grouping them; at least one digit. -/
def digits (base : Nat) : List Char → Option Nat → Option Nat
  | [], acc => acc
  | c :: cs, acc =>
    if c = '_' then digits base cs acc
    else
      match digit base c with
      | some d => digits base cs (some (acc.getD 0 * base + d))
      | none => none

/-- A number: decimal, or hexadecimal with the prefix `0x`. -/
def number : List Char → Option Nat
  | '0' :: 'x' :: cs => digits 16 cs none
  | cs => digits 10 cs none

/-- Operands separated by commas. -/
def operands : List (List Char) → Option (List Nat)
  | [] => some []
  | [a] => (number a).map ([·])
  | a :: c :: rest =>
    if c = [','] ∧ rest ≠ [] then
      match number a, operands rest with
      | some n, some ns => some (n :: ns)
      | _, _ => none
    else none

/-- A line whose instruction fits its ports, as its bundle. -/
def instrLine (P : Params) (i : Instr) : Option Line :=
  if i.wellFormed P then some (.bundle (encode P i)) else none

/-- A call whose operands fit. -/
def callLine (P : Params) (l : Line) : Option Line := if l.wellFormed P then some l else none

/-- The line a mnemonic and its operands stand for (rules R36, R38): input clock first, then the selector or the request; `en`
defaults to 1. -/
def build (P : Params) (mnemonic : List Char) (args : List Nat) : Option Line :=
  if mnemonic = ['d', 'i', 'v', 'f', 'r', 'e', 'q'] then
    match args with
    | [b, n] => instrLine P (.divfreq n b)
    | _ => none
  else if mnemonic = ['d', 'i', 'v', 's', 'e', 'l'] then
    match args with
    | [b, f] => instrLine P (.divsel b f)
    | _ => none
  else if mnemonic = ['d', 'i', 'v', 'c', 'f', 'g'] then
    match args with
    | [bus, b, f] => instrLine P (.divcfg true bus b f)
    | [bus, b, f, en] => if en ≤ 1 then instrLine P (.divcfg (en == 1) bus b f) else none
    | _ => none
  else if mnemonic = ['d', 'i', 'v', 'a', 'c', 't'] then
    match args with
    | [b, f] => callLine P (.divact b f)
    | _ => none
  else if mnemonic = ['a', 'c', 'q', 'u', 'i', 'r', 'e'] then
    match args with
    | [bus, f] => callLine P (.acquire bus f)
    | _ => none
  else if mnemonic = ['r', 'e', 'l', 'e', 'a', 's', 'e'] then
    match args with
    | [bus] => callLine P (.release bus)
    | _ => none
  else none

/-- Read one line: `some none` where it holds no operation (blank, or a comment alone), `none` where it is no line. -/
def readLine (P : Params) (text : List Char) : Option (Option Line) :=
  match lexemes text [] with
  | [] => some none
  | m :: rest =>
    match operands rest with
    | some args => (build P m args).map some
    | none => none

/-- The lines of a text, `rev` the characters of the present one in reverse. -/
def splitLines : List Char → List Char → List (List Char)
  | [], rev => [rev.reverse]
  | c :: cs, rev => if c = '\n' then rev.reverse :: splitLines cs [] else splitLines cs (c :: rev)

/-- Read lines in order; one that is no line makes the whole no program. -/
def readLines (P : Params) : List (List Char) → Option (List Line)
  | [] => some []
  | t :: ts =>
    match readLine P t, readLines P ts with
    | some (some l), some ls => some (l :: ls)
    | some none, some ls => some ls
    | _, _ => none

/-- Read a program: one operation a line, in order (rule R36). -/
def readProgram (P : Params) (text : List Char) : Option (List Line) := readLines P (splitLines text [])

end Sys2Proof.Text
end

