-- ==== Sys2Proof/Tests/Slice0.lean ====
section
/-! SUPPORT. The model's own tests. Expected results are the vectors and programs of 95_test_vectors.md (ids F, V, W, T, P) and
the encodings of 30_encoding.md, not the model's answers. After them, one witness for the hypotheses of each statement. -/

namespace Sys2Proof.Tests

open Sys2Proof.Machine

/-! ### Small states -/

/-- The next state of an outcome. -/
def nextOf : Result → Option State
  | .next s => some s
  | _ => none

/-- The fault of an outcome. -/
def faultOf : Result → Option Fault
  | .fault f => some f
  | _ => none

/-- One bus with the record `(f, n)` (95_test_vectors.md section 4). -/
def withRecord (f n : Nat) : State :=
  { State.reset with buses := [{ Bus.reset with record := { cachedClockHz := f, cachedDivider := n } }] }

/-- A block with another `MAX_DIVIDER` (vector F16). -/
def maxDividerIs (m : Nat) : State := State.resetFor { Config.p0 with maxDivider := m }

/-- Two buses (program P5). -/
def twoBuses : State := State.resetFor { Config.p0 with nbus := 2 }

/-- A bus whose clock is reported as 48 MHz, with lines to come. -/
def at48 (ls : List Line) : State :=
  { State.reset with buses := [{ Bus.reset with clockHz := 48000000 }], pending := ls }

/-- What a `DIVCFG` returned and left: the port and the record of bus 0. -/
def cfgResult (r : Result) : Option (Nat × Option BusRecord) := (nextOf r).map fun t => (t.cfg.sel, t.recordOf 0)

/-! ### Well-formedness refuses what no port can carry -/

theorem test_wellFormed_divfreq_refuses_wide_selector : (Instr.divfreq 8 0).wellFormed Config.p0 = false := by decide
theorem test_wellFormed_divfreq_refuses_wide_clock : (Instr.divfreq 0 4294967296).wellFormed Config.p0 = false := by decide
theorem test_wellFormed_divsel_refuses_wide_clock : (Instr.divsel 4294967296 1).wellFormed Config.p0 = false := by decide
theorem test_wellFormed_divsel_refuses_wide_request : (Instr.divsel 1 4294967296).wellFormed Config.p0 = false := by decide
theorem test_wellFormed_divcfg_refuses_wide_bus : (Instr.divcfg true 2 1 1).wellFormed Config.p0 = false := by decide
theorem test_wellFormed_divcfg_refuses_wide_clock : (Instr.divcfg true 0 4294967296 1).wellFormed Config.p0 = false := by decide
theorem test_wellFormed_divcfg_refuses_wide_request : (Instr.divcfg true 0 1 4294967296).wellFormed Config.p0 = false := by decide
theorem test_wellFormed_codes_refuse_narrow_port :
    (Instr.sel7.wellFormed { Config.p0 with maxDivider := 3 } = false ∧
      Instr.sel2.wellFormed { Config.p0 with maxDivider := 1 } = false) := by decide
theorem test_wellFormed_bundle_refuses_high_bit :
    (⟨.fFreq, 2 ^ 35⟩ : Bundle).wellFormed Config.p0 = false ∧ (⟨.other 7, 0⟩ : Bundle).wellFormed Config.p0 = false := by decide
theorem test_wellFormed_line_refuses_wide_request :
    (Line.acquire 0 4294967296).wellFormed Config.p0 = false ∧ (Line.busClock 0 4294967296).wellFormed Config.p0 = false ∧
      (Line.divact 1 4294967296).wellFormed Config.p0 = false := by decide

/-! ### Decoding: words written out from 30_encoding.md rules R30 and R35 -/

/-- `{sel, clk_in_hz}` = `010`, then 48 000 000 in 32 bits. -/
theorem test_decode_divfreq : decodeTableWord 40 0b01000000010110111000110110000000000 = some (.divfreq 2 48000000) := by decide
/-- `{clk_in_hz, req_hz}` (program P1 line 3). -/
theorem test_decode_divsel : decodeTableWord 64 0x02DC6C00007A1200 = some (.divsel 48000000 8000000) := by decide
/-- `{clk_en, bus, clk_in_hz, req_hz}` (program P4 line a: enable 1, bus 1). -/
theorem test_decode_divcfg : decodeTableWord 72 0x302DC6C00007A1200 = some (.divcfg true 1 48000000 8000000) := by decide
/-- Program P4 line d: enable 0, bus 1, request 0. -/
theorem test_decode_divcfg_disabled : decodeTableWord 72 0x102DC6C0000000000 = some (.divcfg false 1 48000000 0) := by decide
/-- The eight selector codes. -/
theorem test_decode_codes :
    decodeTableWord 8 0b000 = some .sel0 ∧ decodeTableWord 8 0b001 = some .sel1 ∧ decodeTableWord 8 0b010 = some .sel2 ∧
    decodeTableWord 8 0b011 = some .sel3 ∧ decodeTableWord 8 0b100 = some .sel4 ∧ decodeTableWord 8 0b101 = some .sel5 ∧
    decodeTableWord 8 0b110 = some .sel6 ∧ decodeTableWord 8 0b111 = some .sel7 := by decide
/-- Two buses: `BUSW = 2`, 67 bits (program P5 lines 2 and 4). -/
theorem test_decode_divcfg_two_buses :
    decode { Config.p0 with nbus := 2 } ⟨.fCfg, 0x50501BD0000989680⟩ = .instr (.divcfg true 1 84000000 10000000) ∧
    decode { Config.p0 with nbus := 2 } ⟨.fCfg, 0x602DC6C00007A1200⟩ = .instr (.divcfg true 2 48000000 8000000) := by decide
/-- Bits above the ports, and numbers of bits of no operation. -/
theorem test_decode_refuses : decodeTableWord 40 (2 ^ 35) = none ∧ decodeTableWord 8 8 = none ∧ decodeTableWord 72 (2 ^ 66) = none ∧
    decodeTableWord 16 0 = none := by decide
/-- A selector code above the table's rows, `MAX_DIVIDER = 15`: the law of rule R30 continued. -/
theorem test_decode_continued_code :
    decodeOnPorts { Config.p0 with maxDivider := 15 } 48000000 ⟨.selCode, 9⟩ = .instr (.divfreq 9 48000000) := by decide

/-! ### DIVFREQ and the selector codes -/

/-- Vectors F1 to F15: `B`, `n`, factor, `clk_out_hz`, `clk_out_rem`. -/
theorem test_divfreq_vectors : ∀ v ∈ [(48000000, 0, 2, 24000000, 0), (48000000, 2, 8, 6000000, 0), (48000000, 7, 256, 187500, 0),
    (0, 0, 2, 0, 0), (1, 0, 2, 0, 1), (255, 7, 256, 0, 255), (256, 7, 256, 1, 0), (4294967295, 0, 2, 2147483647, 1),
    (4294967295, 7, 256, 16777215, 255), (48000001, 1, 4, 12000000, 1)],
    (nextOf (exec (.divfreq v.2.1 v.1) State.reset)).map (fun t => (t.freq.factor, t.freq.clkOutHz, t.freq.clkOutRem)) =
      some v.2.2 := by decide
/-- Vectors F16 and F17: the reserved code 6 under `MAX_DIVIDER = 5`, and the code beside it. -/
theorem test_divfreq_reserved : faultOf (exec (.divfreq 6 48000000) (maxDividerIs 5)) = some (.selectorRange 6) ∧
    (nextOf (exec (.divfreq 5 48000000) (maxDividerIs 5))).map (fun t => t.freq.clkOutHz) = some 750000 := by decide
/-- The table of 30_encoding.md rule R30: codes after a `DIVFREQ` at 48 MHz. -/
theorem test_codes_at_48MHz : ∀ v ∈ [(Instr.sel0, 2, 24000000), (.sel1, 4, 12000000), (.sel2, 8, 6000000), (.sel3, 16, 3000000),
    (.sel4, 32, 1500000), (.sel5, 64, 750000), (.sel6, 128, 375000), (.sel7, 256, 187500)],
    (nextOf (exec v.1 (State.reset.setFreq (FreqPorts.of 0 48000000)))).map (fun t => (t.freq.factor, t.freq.clkOutHz)) =
      some v.2 := by decide
/-- Reserved codes under `MAX_DIVIDER = 5` (30_encoding.md rule R31). -/
theorem test_codes_reserved : faultOf (exec .sel6 (maxDividerIs 5)) = some (.selectorRange 6) ∧
    faultOf (exec .sel7 (maxDividerIs 5)) = some (.selectorRange 7) ∧ (nextOf (exec .sel5 (maxDividerIs 5))).isSome := by decide

/-! ### DIVSEL -/

/-- Vectors V1 to V18 under P0: `B`, `f`, `Q`, `k*`, `n`. -/
theorem test_divsel_vectors : ∀ v ∈ [(48000000, 8000000, 48, 2, 2), (48000000, 12000000, 32, 1, 1), (48000000, 24000000, 16, 0, 0),
    (48000000, 100000000, 3, 0, 0), (48000000, 16000000, 24, 1, 1), (48000000, 1000000, 384, 5, 5), (40000000, 8000000, 40, 2, 2),
    (48000000, 187500, 2048, 7, 7), (48000000, 100000, 3840, 8, 7), (48000000, 1, 384000000, 25, 7), (50000000, 24000000, 16, 0, 0),
    (50999999, 24000000, 16, 0, 0), (51000000, 24000000, 17, 1, 1), (48000001, 12000000, 32, 1, 1)],
    ratioQ Config.p0 v.1 v.2.1 = v.2.2.1 ∧ kStar Config.p0 v.1 v.2.1 = v.2.2.2.1 ∧
      (nextOf (exec (.divsel v.1 v.2.1) State.reset)).map (fun t => t.sel.sel) = some v.2.2.2.2 := by decide
/-- Vectors V19 to V36 under P0. -/
theorem test_divsel_more_vectors : ∀ v ∈ [(80000000, 20000001, 31, 1, 1), (80000000, 19999999, 32, 1, 1), (0, 1000000, 0, 0, 0),
    (1, 1, 8, 0, 0), (3, 1, 24, 1, 1), (5, 1, 40, 2, 2), (4294967295, 1, 34359738360, 31, 7), (4294967295, 4294967295, 8, 0, 0),
    (4294967295, 2147483648, 15, 0, 0), (84000000, 10000000, 67, 3, 3), (100000000, 400000, 2000, 7, 7), (48, 8, 48, 2, 2),
    (268435456, 1000000, 2147, 8, 7)],
    ratioQ Config.p0 v.1 v.2.1 = v.2.2.1 ∧ kStar Config.p0 v.1 v.2.1 = v.2.2.2.1 ∧
      (nextOf (exec (.divsel v.1 v.2.1) State.reset)).map (fun t => t.sel.sel) = some v.2.2.2.2 := by decide
/-- Vectors W1 to W10 under other parameters: `S`, `MAX_DIVIDER`, `B`, `f`, `n`. -/
theorem test_divsel_other_parameters : ∀ v ∈ [(0, 7, 48000000, 8000000, 2), (1, 7, 48000000, 8000000, 2), (0, 7, 40000000, 8000000, 1),
    (8, 7, 40000000, 8000000, 2), (0, 7, 50000000, 24000000, 0), (8, 7, 50000000, 24000000, 1), (8, 7, 48100000, 24000000, 0),
    (4, 3, 48000000, 1000000, 3), (4, 1, 48000000, 8000000, 1), (4, 0, 48000000, 8000000, 0)],
    selector { Config.p0 with s := v.1, maxDivider := v.2.1 } v.2.2.1 v.2.2.2.1 = v.2.2.2.2 := by decide
/-- Vector V37. -/
theorem test_divsel_zero_request : faultOf (exec (.divsel 48000000 0) State.reset) = some .zeroRequest := by decide

/-! ### DIVCFG -/

/-- Vectors T1 to T4 and T11: misses, hits and the stale hit. -/
theorem test_divcfg_lookups :
    cfgResult (exec (.divcfg true 0 48000000 8000000) State.reset) = some (2, some ⟨8000000, 2⟩) ∧
    cfgResult (exec (.divcfg true 0 48000000 8000000) (withRecord 8000000 2)) = some (2, some ⟨8000000, 2⟩) ∧
    cfgResult (exec (.divcfg true 0 48000000 1000000) (withRecord 8000000 2)) = some (5, some ⟨1000000, 5⟩) ∧
    cfgResult (exec (.divcfg true 0 96000000 8000000) (withRecord 8000000 2)) = some (2, some ⟨8000000, 2⟩) ∧
    cfgResult (exec (.divcfg true 0 48000000 100000) State.reset) = some (7, some ⟨100000, 7⟩) := by decide
/-- Vectors T5 to T10 and program P4: the faults and their order. -/
theorem test_divcfg_faults :
    faultOf (exec (.divcfg true 0 48000000 0) (withRecord 8000000 2)) = some .zeroRequest ∧
    faultOf (exec (.divcfg true 0 48000000 0) State.reset) = some .zeroRequest ∧
    faultOf (exec (.divcfg false 0 48000000 8000000) (withRecord 8000000 2)) = some (.clockDomainOff 0) ∧
    faultOf (exec (.divcfg true 1 48000000 8000000) State.reset) = some (.busIndex 1) ∧
    faultOf (exec (.divcfg false 1 48000000 0) State.reset) = some (.busIndex 1) ∧
    faultOf (exec (.divcfg false 0 48000000 0) State.reset) = some (.clockDomainOff 0) := by decide

/-! ### Steps, windows and text -/

/-- The first step after reset runs the word placed (program P1 line 1). -/
theorem test_step_runs_the_word :
    cfgResult (step (State.reset.withFetchWord 72 0x202DC6C00007A1200)) = some (2, some ⟨8000000, 2⟩) := by decide
/-- `acquire` programs the selector and opens the window (program P3: 12 MHz from 48 MHz gives selector 1). -/
theorem test_acquire : (nextOf (step (at48 [.acquire 0 12000000]))).map (fun t => t.buses.map fun b => (b.programmedSel, b.window)) =
    some [(1, .acquired)] := by decide
/-- `release` keeps the cache and stops the output. -/
theorem test_release : (nextOf (step { withRecord 8000000 2 with pending := [.release 0] })).map
    (fun t => (t.recordOf 0, t.buses.map fun b => (b.window, b.output))) = some (some ⟨8000000, 2⟩, [(.idle, none)]) := by decide
/-- `divact 48_000_000, 1_000_000` (program P2 line 4). -/
theorem test_divact : (nextOf (step { State.reset with pending := [.divact 48000000 1000000] })).map
    (fun t => (t.sel.sel, t.freq.factor, t.freq.clkOutHz)) = some (5, 64, 750000) := by decide
/-- `divfreq 48_000_000, 2 ; x` reads as program P1 line 4. -/
theorem test_text_divfreq : Text.readLine Config.p0 ['d', 'i', 'v', 'f', 'r', 'e', 'q', ' ', '4', '8', '_', '0', '0', '0', '_', '0',
    '0', '0', ',', ' ', '2', ' ', ';', ' ', 'x'] = some (some (.bundle ⟨.fFreq, 0x202DC6C00⟩)) := by decide
/-- `divcfg 0, 0x10, 9` has the enable 1; a comment alone is no operation; a missing operand is no line. -/
theorem test_text_divcfg :
    Text.readLine Config.p0 ['d', 'i', 'v', 'c', 'f', 'g', ' ', '0', ',', '0', 'x', '1', '0', ',', '9'] =
      some (some (.bundle (encode Config.p0 (.divcfg true 0 16 9)))) ∧
    Text.readLine Config.p0 [' ', ';', 'x'] = some none ∧
    Text.readLine Config.p0 ['d', 'i', 'v', 's', 'e', 'l', ' ', '1', ','] = none := by decide
/-- Two lines, a blank one between, read in order: `divact 4, 1` and `acquire 0, 3`. -/
theorem test_text_program :
    Text.readProgram Config.p0 ['d', 'i', 'v', 'a', 'c', 't', ' ', '4', ',', '1', '\n', '\n', 'a', 'c', 'q', 'u', 'i', 'r', 'e', ' ',
      '0', ',', '3'] = some [.divact 4 1, .acquire 0 3] := by decide

/-! ### Witnesses: a state and operands that meet the hypotheses of each statement -/

/-- A set record that is coherent, one bus, everything else as after reset: the invariant holds in a state no reset gives. -/
theorem witness_invariant : (withRecord 8000000 2).Inv where
  params := ⟨by decide, by decide⟩
  buses := by
    intro bus h
    cases List.mem_singleton.mp h
    exact ⟨⟨by decide, by decide, fun _ => ⟨48000000, by decide, by decide⟩⟩, by decide, by decide⟩
  freq := ⟨by decide, by decide, by decide⟩
  sel := ⟨by decide, by decide, fun h => absurd rfl h⟩
  cfg := fun h => absurd rfl h

theorem witness_PortWidthsAreLeast : 1 ≤ 3 ∧ Config.p0.maxDivider < 2 ^ 3 ∧ 1 ≤ 1 ∧ Config.p0.nbus < 2 ^ 1 := by decide
theorem witness_NotationMeansWhatItSays : 1 ≤ 48 ∧ 0 ≤ 5 := by decide
theorem witness_DecodeReadsBackEncode : Config.p0.Valid ∧ (Instr.divfreq 7 4294967295).wellFormed Config.p0 = true ∧
    (Instr.divsel 4294967295 4294967295).wellFormed Config.p0 = true ∧
    (Instr.divcfg true 1 4294967295 4294967295).wellFormed Config.p0 = true ∧ Instr.sel7.wellFormed Config.p0 = true := by decide
theorem witness_EncodeReadsBackDecode : Config.p0.Valid ∧
    decode Config.p0 ⟨.fCfg, 2 ^ 66 - 1⟩ = .instr (.divcfg true 1 4294967295 4294967295) := by decide
theorem witness_SelectorCodesEncodeFactors : 7 ≤ Config.p0.maxDivider ∧ selOfFactor Config.p0 256 = some 7 ∧ 8 ≤ Config.p0.maxDivider + 1 ∧
    selOfFactor Config.p0 3 = none := by decide
theorem witness_factor_no_power : ∀ k, 3 ≠ 2 ^ k := by
  intro k h
  rcases k with _ | k
  · simp at h
  · rw [pow_succ] at h
    omega
theorem witness_ReservedSelectorCodes : (maxDividerIs 5).maxDivider < 6 ∧ Fits (maxDividerIs 5).params.selw 6 ∧
    Fits Config.p0.selw 7 ∧
    (∃ t, exec (.divsel 48000000 1) State.reset = .next t) ∧
    (withRecord 8000000 2).Inv ∧ (∃ t, exec (.divcfg true 0 48000000 8000000) (withRecord 8000000 2) = .next t) :=
  ⟨by decide, by decide, by decide, ⟨_, rfl⟩, witness_invariant, ⟨_, rfl⟩⟩
theorem witness_DivfreqDividesTheInputClock : 7 ≤ State.reset.maxDivider ∧ Fits State.reset.width 4294967295 ∧
    (maxDividerIs 5).maxDivider < 6 := by decide
theorem witness_SelectorCodesDriveTheDivider : 7 ≤ State.reset.maxDivider ∧ (maxDividerIs 6).maxDivider < 7 := by decide
theorem witness_OutputPortsCarryTheExactQuotient : ∃ t, exec (.divfreq 7 255) State.reset = .next t := ⟨_, rfl⟩
theorem witness_OutputPeriodIsFactorInputPeriods : 0 < 255 ∧ ∃ t, exec (.divfreq 7 255) State.reset = .next t := ⟨by decide, _, rfl⟩
theorem witness_reserved_no_power : ∀ k, (maxDividerIs 5).maxDivider + 1 ≠ 2 ^ k := by
  intro k h
  rcases k with _ | _ | k
  · cases h
  · cases h
  · have h : 6 = 2 ^ (k + 2) := h
    rw [pow_add] at h
    omega
theorem witness_SelectorOutOfRangeRaises : (maxDividerIs 5).maxDivider < 6 ∧
    (Instr.divfreq 6 48000000).wellFormed (maxDividerIs 5).params = true ∧
    (maxDividerIs 0).maxDivider < 1 ∧ (Instr.divfreq 1 48000000).wellFormed (maxDividerIs 0).params = true := by decide
theorem witness_DividerLaws : 6 + 1 ≤ State.reset.maxDivider ∧ 0 < 48 ∧ 48 ≤ 49 ∧ 3 * 48 < 2 ^ State.reset.width ∧
    (∃ t, exec (.divfreq 7 48) State.reset = .next t) ∧ (∃ t, exec (.divfreq 7 49) State.reset = .next t) ∧
    ∃ t, exec (.divfreq 7 (3 * 48)) State.reset = .next t :=
  ⟨by decide, by decide, by decide, by decide, ⟨_, rfl⟩, ⟨_, rfl⟩, ⟨_, rfl⟩⟩
/-- The threshold, a power of two and a ratio between two powers: `Q` = 16, 32 and 48. -/
theorem witness_DivselReturnsTheSelector : 8000000 ≠ 0 ∧
    48000000 * 2 ^ State.reset.shift / (2 * 24000000) ≤ 2 ^ State.reset.shift ∧
    48000000 * 2 ^ State.reset.shift / (2 * 12000000) = 2 ^ (State.reset.shift + 1) ∧
    2 ^ (State.reset.shift + 1) < 48000000 * 2 ^ State.reset.shift / (2 * 8000000) ∧
    48000000 * 2 ^ State.reset.shift / (2 * 8000000) < 2 ^ (State.reset.shift + 1 + 1) ∧ 2 ≤ State.reset.maxDivider := by decide
theorem witness_FixedPointRatioTruncates : (3 : Nat) ≠ 0 := by decide
/-- A completed `DIVSEL` whose selector is 0, with a ratio at the threshold. -/
theorem witness_SelectorZeroThreshold : 1 ≤ State.reset.maxDivider ∧ ratioQ State.reset.params 48000000 24000000 ≤ 2 ^ State.reset.shift ∧
    (∃ t, exec (.divsel 48000000 24000000) State.reset = .next t ∧ t.sel.sel = 0) ∧
    ∃ t, exec (.divsel 48000000 12000000) State.reset = .next t :=
  ⟨by decide, by decide, ⟨_, rfl, by decide⟩, ⟨_, rfl⟩⟩
theorem witness_DivselResultIsInRange : ∃ t, exec (.divsel 48000000 1) State.reset = .next t ∧ t.sel.sel = 7 := ⟨_, rfl, by decide⟩
theorem witness_PureOperationsGiveTheSameResultAgain :
    (∃ t, runInstrs [.divcfg true 0 48000000 8000000, .sel7, .divfreq 3 5, .divsel 9 1] State.reset = .next t) ∧
    (∃ t, exec (.divsel 48000000 8000000) State.reset = .next t) ∧ ∃ t, exec (.divfreq 7 48000000) State.reset = .next t :=
  ⟨⟨_, rfl⟩, ⟨_, rfl⟩, ⟨_, rfl⟩⟩
theorem witness_ZeroBusClockIsAccepted : (1000000 : Nat) ≠ 0 := by decide
theorem witness_SelectorIsTheClampedLeastExponent : (∃ t, exec (.divsel 48000000 8000000) State.reset = .next t) ∧
    2 ^ State.reset.shift < ratioQ State.reset.params 48000000 8000000 ∧
    ratioQ State.reset.params 48000000 48000000 ≤ 2 ^ State.reset.shift ∧ 1 < kStar State.reset.params 48000000 8000000 :=
  ⟨⟨_, rfl⟩, by decide, by decide, by decide⟩
/-- Unclamped requests: exact (V1), in the truncation window (V18, `n = MAX_DIVIDER`), inexact without overshoot (V30). -/
theorem witness_OvershootExactlyInTheTruncationWindow :
    (∃ t, exec (.divsel 48000000 8000000) State.reset = .next t) ∧ ¬ Clamped State.reset.params 48000000 8000000 ∧
    ¬ Inexact State.reset.params 48000000 8000000 ∧ 2 * 8000000 ∣ 48000000 * 2 ^ State.reset.shift ∧
    ¬ Clamped State.reset.params 48000000 187499 ∧ Overshoot State.reset.params 48000000 187499 ∧
    ¬ Clamped State.reset.params 84000000 10000000 ∧ Inexact State.reset.params 84000000 10000000 ∧
    ¬ Overshoot State.reset.params 84000000 10000000 :=
  ⟨⟨_, rfl⟩, by decide, by decide, by decide, by decide, by decide, by decide, by decide, by decide⟩
/-- One completed `DIVSEL` for each clause: not exceeding (V1), in the window (V14), clamped (V12). -/
theorem witness_FastestNonExceedingChoice :
    (∃ t, exec (.divsel 48000000 8000000) State.reset = .next t ∧ 1 ≤ t.sel.sel ∧ ¬ Exceeds 48000000 t.sel.sel 8000000) ∧
    ¬ Clamped State.reset.params 48000000 8000000 ∧
    (∃ t, exec (.divsel 50000000 24000000) State.reset = .next t ∧ Exceeds 50000000 t.sel.sel 24000000) ∧
    ¬ Clamped State.reset.params 50000000 24000000 ∧
    (∃ t, exec (.divsel 48000000 100000) State.reset = .next t) ∧ Clamped State.reset.params 48000000 100000 :=
  ⟨⟨_, rfl, by decide, by decide⟩, by decide, ⟨_, rfl, by decide⟩, by decide, ⟨_, rfl⟩, by decide⟩
theorem witness_SelectorIsMonotoneAndScaleFree : (∃ t, exec (.divsel 48000000 8000000) State.reset = .next t) ∧ 48000000 ≤ 84000000 ∧
    (∃ t, exec (.divsel 84000000 8000000) State.reset = .next t) ∧ 8000000 ≤ 9000000 ∧
    (∃ t, exec (.divsel 48000000 9000000) State.reset = .next t) ∧
    ∃ t, exec (.divsel (3 * 48000000) (3 * 8000000)) State.reset = .next t :=
  ⟨⟨_, rfl⟩, by decide, ⟨_, rfl⟩, by decide, ⟨_, rfl⟩, ⟨_, rfl⟩⟩
theorem witness_UnreachablyFastRequestFallsShort :
    (∃ t, exec (.divsel 48000000 24000000) State.reset = .next t) ∧ 48000000 ≤ 2 * 24000000 ∧
    (∃ t, exec (.divsel 50000000 24000000) State.reset = .next t ∧ Exceeds 50000000 t.sel.sel 24000000) ∧
    ratioQ State.reset.params 50000000 24000000 ≤ 2 ^ State.reset.shift :=
  ⟨⟨_, rfl⟩, by decide, ⟨_, rfl, by decide⟩, by decide⟩
theorem witness_ClampedRequestIsAlwaysExceeded : (∃ t, exec (.divsel 48000000 100000) State.reset = .next t) ∧
    Clamped State.reset.params 48000000 100000 := ⟨⟨_, rfl⟩, by decide⟩
/-- The largest operands of the ports, and the largest `B` inside the safe domain (V35). -/
theorem witness_WrappingArithmeticAgreesOnTheSafeDomain : 1 ≤ Config.p0.w ∧ Fits Config.p0.w 4294967295 ∧ (4294967295 : Nat) ≠ 0 ∧
    ratioQ Config.p0 4294967295 1 ≠ 0 ∧ SafeDomain Config.p0 268435455 1000000 := by decide
/-- A hit and a miss on a configured bus, the first index outside, and a bus with the domain off. -/
theorem witness_DivcfgLooksTheRequestUp : ∃ old, (withRecord 8000000 2).buses[0]? = some old ∧ 8000000 ≠ 0 ∧
    8000000 = old.record.cachedClockHz ∧ 1000000 ≠ 0 ∧ 1000000 ≠ old.record.cachedClockHz ∧ (withRecord 8000000 2).nbus ≤ 1 ∧
    0 < (withRecord 8000000 2).nbus := ⟨_, rfl, by decide, by decide, by decide, by decide, by decide, by decide⟩
theorem witness_DivcfgFaultPriority : (withRecord 8000000 2).nbus ≤ 1 ∧ 0 < (withRecord 8000000 2).nbus ∧
    exec (.divsel 48000000 0) (withRecord 8000000 2) = .fault .zeroRequest ∧
    exec (.divfreq 6 48000000) (maxDividerIs 5) = .fault (.selectorRange 6) := ⟨by decide, by decide, rfl, rfl⟩
theorem witness_DivcfgIsIdempotent :
    (∃ r, (withRecord 8000000 2).recordOf 0 = some r ∧ r.cachedClockHz = 8000000) ∧
    (∃ t, exec (.divcfg true 0 48000000 8000000) (withRecord 8000000 2) = .next t) ∧
    (∃ t, exec (.divcfg true 0 48000000 1000000) (withRecord 8000000 2) = .next t) ∧
    CacheValid (fun _ => 48000000) (withRecord 8000000 2) := by
  refine ⟨⟨_, rfl, rfl⟩, ⟨_, rfl⟩, ⟨_, rfl⟩, fun b r h _ => ?_⟩
  rcases b with _ | b
  · cases h
    decide
  · cases h
theorem witness_CacheIsKeyedByTheRequestAlone :
    (∃ r, (withRecord 8000000 2).recordOf 0 = some r ∧ 8000000 = r.cachedClockHz ∧ 1000000 ≠ r.cachedClockHz) ∧
    (∃ t, exec (.divcfg true 0 48000000 8000000) (withRecord 8000000 2) = .next t) ∧
    (∃ t, exec (.divcfg true 0 96000000 8000000) (withRecord 8000000 2) = .next t) ∧
    (∃ t u v, exec (.divcfg true 0 48000000 1000000) (withRecord 8000000 2) = .next t ∧
      exec (.divcfg true 0 96000000 1000000) t = .next u ∧ exec (.divcfg true 0 48000000 8000000) t = .next v) ∧
    (∃ t u v, exec (.divcfg true 0 1 1000000) (withRecord 8000000 2) = .next t ∧ exec (.divcfg true 0 2 8000000) t = .next u ∧
      exec (.divcfg true 0 3 1000000) u = .next v) :=
  ⟨⟨_, rfl, by decide, by decide⟩, ⟨_, rfl⟩, ⟨_, rfl⟩, ⟨_, _, _, rfl, rfl, rfl⟩, ⟨_, _, _, rfl, rfl, rfl⟩⟩
/-- Bus 1 of two completes; another state with the same parameters and record of bus 1 and a different bus 0. -/
theorem witness_DivcfgTouchesItsOwnBusOnly : twoBuses.nbus ≤ 2 ∧ (∃ t, exec (.divcfg true 1 84000000 10000000) twoBuses = .next t) ∧
    ∃ u, exec (.divcfg true 0 48000000 8000000) twoBuses = .next u ∧ u.params = twoBuses.params ∧
      u.recordOf 1 = twoBuses.recordOf 1 := ⟨by decide, ⟨_, rfl⟩, _, rfl, rfl, rfl⟩
theorem witness_StepsOnDifferentBusesCommute : 0 ≠ 1 ∧ ∃ t u, exec (.divcfg true 0 48000000 8000000) twoBuses = .next t ∧
    exec (.divcfg true 1 84000000 10000000) t = .next u := ⟨by decide, _, _, rfl, rfl⟩
/-- Selector codes and `DIVFREQ` with the other two operations, and `DIVSEL` with `DIVCFG`. -/
theorem witness_OperationsOnDifferentPortsCommute :
    portsDriven .sel7 ≠ portsDriven (.divsel 1 1) ∧ portsDriven .sel7 ≠ portsDriven (.divcfg true 0 1 1) ∧
    portsDriven (.divsel 1 1) ≠ portsDriven (.divcfg true 0 1 1) ∧
    (∃ t u, exec .sel7 State.reset = .next t ∧ exec (.divcfg true 0 48000000 8000000) t = .next u) ∧
    (∃ t u, exec (.divsel 48000000 8000000) State.reset = .next t ∧ exec .sel0 t = .next u) ∧
    (∃ t u, exec (.divfreq 2 48000000) State.reset = .next t ∧ exec (.divsel 48000000 8000000) t = .next u) ∧
    (∃ t u, exec (.divfreq 2 48000000) State.reset = .next t ∧ exec (.divcfg true 0 48000000 8000000) t = .next u) ∧
    (∃ t u, exec (.divsel 48000000 8000000) State.reset = .next t ∧ exec (.divfreq 2 48000000) t = .next u) ∧
    (∃ t u, exec (.divsel 48000000 8000000) State.reset = .next t ∧ exec (.divcfg true 0 48000000 8000000) t = .next u) :=
  ⟨by decide, by decide, by decide, ⟨_, _, rfl, rfl⟩, ⟨_, _, rfl, rfl⟩, ⟨_, _, rfl, rfl⟩, ⟨_, _, rfl, rfl⟩, ⟨_, _, rfl, rfl⟩,
    ⟨_, _, rfl, rfl⟩⟩
theorem witness_CompleteFaultSet : exec (.divcfg true 1 0 1) State.reset = .fault (.busIndex 1) ∧
    exec (.divcfg false 0 0 1) State.reset = .fault (.clockDomainOff 0) ∧ exec (.divsel 1 0) State.reset = .fault .zeroRequest ∧
    exec (.divcfg true 0 1 0) State.reset = .fault .zeroRequest ∧
    exec .sel6 (maxDividerIs 5) = .fault (.selectorRange 6) ∧
    exec (.divfreq 6 0) (maxDividerIs 5) = .fault (.selectorRange 6) := ⟨rfl, rfl, rfl, rfl, rfl, rfl⟩
theorem witness_InstructionFrames : (∃ t, exec (.divfreq 7 255) twoBuses = .next t) ∧ (∃ t, exec .sel7 twoBuses = .next t) ∧
    (∃ t, exec (.divsel 48000000 1) twoBuses = .next t) ∧
    ∃ t old new, exec (.divcfg true 1 84000000 10000000) twoBuses = .next t ∧ twoBuses.buses[1]? = some old ∧ t.buses[1]? = some new :=
  ⟨⟨_, rfl⟩, ⟨_, rfl⟩, ⟨_, rfl⟩, ⟨_, _, _, rfl, rfl, rfl⟩⟩
/-- A bundle of the table, a selector code above it (`MAX_DIVIDER = 15`), and a bundle that is no instruction. -/
theorem witness_StepRunsTheDecodedInstruction :
    decode Config.p0 ⟨.fSel, 0x02DC6C00007A1200⟩ = .instr (.divsel 48000000 8000000) ∧
    decodeOnPorts (maxDividerIs 15).params 0 ⟨.selCode, 15⟩ = .instr (.divfreq 15 0) ∧
    decodeOnPorts Config.p0 0 ⟨.other 7, 0⟩ = .error (.noOperation 7) ∧ State.reset.pending = [] := by decide
/-- A bundle step and an `acquire` step that each change the record of bus 0. -/
theorem witness_RecordsChangeOnlyByMissingDivcfg :
    (∃ t, step (State.reset.withFetchWord 72 0x202DC6C00007A1200) = .next t ∧ t.recordOf 0 = some ⟨8000000, 2⟩) ∧
    (State.reset.withFetchWord 72 0x202DC6C00007A1200).recordOf 0 = some ⟨0, 0⟩ ∧
    (∃ t, step (at48 [.acquire 0 12000000]) = .next t ∧ t.recordOf 0 = some ⟨12000000, 1⟩) ∧
    (at48 [.acquire 0 12000000]).recordOf 0 = some ⟨0, 0⟩ :=
  ⟨⟨_, rfl, by decide⟩, by decide, ⟨_, rfl, by decide⟩, by decide⟩
theorem witness_SetRecordStaysSet :
    (∃ t, step ((withRecord 8000000 2).withFetchWord 72 0x202DC6C00000F4240) = .next t) ∧
    ∃ r, ((withRecord 8000000 2).withFetchWord 72 0x202DC6C00000F4240).recordOf 0 = some r ∧ r.cachedClockHz ≠ 0 :=
  ⟨⟨_, rfl⟩, _, rfl, by decide⟩
/-- A valid set record, and a completed miss, hit and other operation from it. -/
theorem witness_CachedSelectorIsValidForItsRequest :
    CacheValid (fun _ => 48000000) (withRecord 8000000 2) ∧
    (∃ t, exec (.divcfg true 0 96000000 1000000) (withRecord 8000000 2) = .next t) ∧
    (∃ t, exec (.divcfg true 0 96000000 8000000) (withRecord 8000000 2) = .next t) ∧
    ∃ t, exec .sel7 (withRecord 8000000 2) = .next t :=
  ⟨witness_DivcfgIsIdempotent.2.2.2, ⟨_, rfl⟩, ⟨_, rfl⟩, ⟨_, rfl⟩⟩
/-- The same cache with a line to come of each kind: each completes, and the `acquire`, a miss at 48 MHz, is a lookup. -/
theorem witness_CachedSelectorIsValid_over_steps :
    (∀ ls, CacheValid (fun _ => 48000000) ((withRecord 8000000 2).setPending ls)) ∧
    (∀ l ∈ [Line.divact 48000000 1000000, .release 0, .busClock 0 96000000, .acquire 0 1000000],
      (nextOf (step ((withRecord 8000000 2).setPending [l]))).isSome) ∧
    lookupPresented (at48 [.acquire 0 12000000]) = some (0, 48000000, 12000000) ∧
    stepMissClock (fun _ => 1) (at48 [.acquire 0 12000000]) 0 = 48000000 :=
  ⟨fun _ => witness_DivcfgIsIdempotent.2.2.2, by decide, by decide,
    by
      show missClock (fun _ => 1) (.divcfg true 0 48000000 12000000) (at48 [.acquire 0 12000000]) 0 = 48000000
      unfold missClock
      exact if_pos ⟨rfl, fun r h => by cases h; decide⟩⟩
/-- A miss and then two hits on bus 0: the second disjunct; and a run of hits: the first. -/
theorem witness_RecordIsWhatTheLastMissWrote :
    (∃ t, runInstrs [.divcfg true 0 48000000 8000000, .sel1, .divcfg true 0 96000000 8000000] State.reset = .next t ∧
      t.recordOf 0 = some ⟨8000000, 2⟩) ∧ State.reset.recordOf 0 = some ⟨0, 0⟩ ∧
    (∃ t, runInstrs [.divcfg true 0 96000000 8000000] (withRecord 8000000 2) = .next t ∧ t.recordOf 0 = some ⟨8000000, 2⟩) ∧
    (withRecord 8000000 2).recordOf 0 = some ⟨8000000, 2⟩ :=
  ⟨⟨_, rfl, by decide⟩, by decide, ⟨_, rfl, by decide⟩, by decide⟩
theorem witness_BusRecordDependsOnItsOwnStepsOnly :
    ∃ t, runInstrs [.divcfg true 0 48000000 8000000, .divcfg true 1 84000000 10000000, .sel2, .divcfg true 0 48000000 1000000]
      twoBuses = .next t := ⟨_, rfl⟩
/-- Two states that differ in the selector of an unset record and only there. -/
theorem witness_UnsetSelectorIsUnobservable :
    ((withRecord 0 0).withFetchWord 72 0x202DC6C00007A1200).AlikeButUnset
      ((withRecord 0 5).withFetchWord 72 0x202DC6C00007A1200) ∧ withRecord 0 0 ≠ withRecord 0 5 :=
  ⟨⟨rfl, rfl, rfl, .cons ⟨rfl, fun h => absurd rfl h, rfl, rfl, rfl⟩ .nil, rfl, rfl, rfl, rfl⟩, by decide⟩
theorem witness_StepKeepsTheMachineInvariant :
    ((withRecord 8000000 2).withFetchWord 72 0x202DC6C00000F4240).Inv ∧
    ∃ t, step ((withRecord 8000000 2).withFetchWord 72 0x202DC6C00000F4240) = .next t ∧ t ≠ withRecord 8000000 2 :=
  ⟨⟨witness_invariant.params, witness_invariant.buses, witness_invariant.freq, witness_invariant.sel, witness_invariant.cfg⟩,
    _, rfl, by decide⟩
theorem witness_StepKeepsTheParameters : ∃ t, step ((withRecord 8000000 2).withFetchWord 72 0x202DC6C00000F4240) = .next t := ⟨_, rfl⟩
theorem witness_ResetMeetsTheMachineInvariant : Config.p0.Valid := by decide
theorem witness_ResetLeavesEveryRecordUnset : ∃ bus, bus ∈ (State.resetFor Config.p0).buses := ⟨Bus.reset, by decide⟩
/-- A `DIVCFG`, then a `DIVSEL` with request 0, then a line that would change the record. -/
theorem witness_StepsRunTheLinesInOrderUntilAFault : Config.p0.Valid ∧
    (∀ j ∈ [Instr.divcfg true 0 48000000 8000000, .divsel 48000000 0], j.wellFormed Config.p0 = true) ∧
    ∃ s u : State, s.params = Config.p0 ∧ s.pending = [Instr.divcfg true 0 48000000 8000000, .divsel 48000000 0].map
      (fun j => Line.bundle (encode Config.p0 j)) ++ [.acquire 0 1000000] ∧
      runInstrs [.divcfg true 0 48000000 8000000] { s with pending := [.acquire 0 1000000] } = .next u ∧
      exec (.divsel 48000000 0) u = .fault .zeroRequest :=
  ⟨by decide, by decide, State.reset.setPending _, _, rfl, rfl, rfl, rfl⟩
theorem witness_AcquireProgramsTheReturnedSelector : ∃ old, (at48 [.acquire 0 12000000]).pending = .acquire 0 12000000 :: [] ∧
    (at48 [.acquire 0 12000000]).buses[0]? = some old ∧ old.window = .idle ∧ 12000000 ≠ 0 ∧
    Fits (at48 [.acquire 0 12000000]).width 12000000 := ⟨_, rfl, rfl, rfl, by decide, by decide⟩
/-- An open window that its `release` ends, and the doubled `release` of an Idle bus (log 20). -/
theorem witness_ReleaseKeepsTheCache :
    (∃ s old, step (at48 [.acquire 0 12000000, .release 0]) = .next s ∧ s.pending = .release 0 :: [] ∧ s.buses[0]? = some old ∧
      old.window = .acquired ∧ old.output.isSome) ∧
    ∃ old, (at48 [.release 0]).pending = .release 0 :: [] ∧ (at48 [.release 0]).buses[0]? = some old ∧ old.window = .idle :=
  ⟨⟨_, _, rfl, rfl, rfl, rfl, rfl⟩, _, rfl, rfl, rfl⟩
theorem witness_ReprogrammingInsideAWindowIsRefused :
    ∃ t old, step (at48 [.acquire 0 12000000, .acquire 0 6000000]) = .next t ∧ t.pending = .acquire 0 6000000 :: [] ∧
      t.buses[0]? = some old ∧ old.window = .acquired ∧ Fits t.width 6000000 := ⟨_, _, rfl, rfl, rfl, rfl, by decide⟩
theorem witness_DivactComputesTheActualClock : (at48 [.divact 48000000 1000000]).pending = .divact 48000000 1000000 :: [] ∧
    Fits (at48 []).width 48000000 ∧ Fits (at48 []).width 1000000 ∧ 1000000 ≠ 0 := by decide
/-- Program P3 with the windows around it: the clock doubles between two windows, each of whose steps completes. -/
theorem witness_ChangedBusClockLeavesTheSelectorStale :
    ∃ old t u v w new, (at48 [.acquire 0 12000000, .release 0, .busClock 0 96000000, .acquire 0 12000000]).buses[0]? = some old ∧
      12000000 ≠ old.record.cachedClockHz ∧
      step (at48 [.acquire 0 12000000, .release 0, .busClock 0 96000000, .acquire 0 12000000]) = .next t ∧ step t = .next u ∧
      step u = .next v ∧ step v = .next w ∧ w.buses[0]? = some new := ⟨_, _, _, _, _, _, rfl, by decide, rfl, rfl, rfl, rfl, rfl⟩
theorem witness_PowerOfTwoRequestsAreMetExactly : 1 ≤ 8 ∧ 8 ≤ State.reset.maxDivider + 1 ∧
    ∃ t, exec (.divsel (187500 * 2 ^ 8) 187500) State.reset = .next t := ⟨by decide, by decide, _, rfl⟩
theorem witness_CallersCheckRulesOutTheClamp : 48000000 ≤ 187500 * 2 ^ (State.reset.maxDivider + 1) ∧
    100000 * 2 ^ (State.reset.maxDivider + 1) < 48000000 ∧ (∃ t, exec (.divsel 48000000 187500) State.reset = .next t) ∧
    ∃ t, exec (.divsel 48000000 100000) State.reset = .next t := ⟨by decide, by decide, ⟨_, rfl⟩, ⟨_, rfl⟩⟩

end Sys2Proof.Tests
end

section
/-! SUPPORT and PROOF of 10_state.md rule R12. What a completed operation or step can do to the records of the buses is said once
(`exec_records`, `step_records`: it keeps them all, or it looks one request up on one bus); the invariant then needs only that
these two effects keep it. -/

namespace Sys2Proof.Machine

/-- From `s` to `t` the parameters and every record are kept. -/
structure RecordsKept (s t : State) : Prop where
  params : t.params = s.params
  records : ∀ b, t.recordOf b = s.recordOf b

/-- From `s` to `t` the records change by one `DIVCFG` with request `f` at bus clock `B`, and by nothing else
(42_divcfg.md rule R70). -/
structure RecordsLookedUp (bus clkInHz reqHz : Nat) (s t : State) : Prop where
  request : reqHz ≠ 0
  params : t.params = s.params
  self : ∃ r, s.recordOf bus = some r ∧ t.recordOf bus = some (r.lookup s.params clkInHz reqHz)
  other : ∀ b, b ≠ bus → t.recordOf b = s.recordOf b

/-- The next step of `s` presents a `DIVCFG` that can complete: as a bundle, or as the clock step of `acquire` on an idle bus
(30_encoding.md rule R38). -/
def PresentsDivcfg (bus clkInHz reqHz : Nat) (s : State) : Prop :=
  (∃ bits rest, s.pending = .bundle bits :: rest ∧ decode s.params bits = .instr (.divcfg true bus clkInHz reqHz)) ∨
  ∃ rest old, s.pending = .acquire bus reqHz :: rest ∧ s.buses[bus]? = some old ∧ old.window = .idle ∧ old.clockHz = clkInHz

/-! ### Effects on the records -/

theorem RecordsKept.refl (s : State) : RecordsKept s s := ⟨rfl, fun _ => rfl⟩

theorem RecordsKept.trans {s t u : State} (h : RecordsKept s t) (h' : RecordsKept t u) : RecordsKept s u :=
  ⟨h'.params.trans h.params, fun b => (h'.records b).trans (h.records b)⟩

theorem RecordsLookedUp.trans_kept {bus clkInHz reqHz : Nat} {s t u : State} (h : RecordsLookedUp bus clkInHz reqHz s t)
    (h' : RecordsKept t u) : RecordsLookedUp bus clkInHz reqHz s u := by
  obtain ⟨r, hs, ht⟩ := h.self
  exact ⟨h.request, h'.params.trans h.params, ⟨r, hs, (h'.records bus).trans ht⟩,
    fun b hb => (h'.records b).trans (h.other b hb)⟩

/-- Taking the line off the list does not count: a lookup reads no pending line. -/
theorem RecordsLookedUp.of_setPending {bus clkInHz reqHz : Nat} {s t : State} {ls : List Line}
    (h : RecordsLookedUp bus clkInHz reqHz (s.setPending ls) t) : RecordsLookedUp bus clkInHz reqHz s t :=
  ⟨h.request, h.params, h.self, h.other⟩

theorem modifyBus_recordsKept {f : Bus → Bus} (bus : Nat) (s : State) (hf : ∀ old, (f old).record = old.record) :
    RecordsKept s (s.modifyBus bus f) :=
  ⟨State.modifyBus_params bus f s, fun b => State.modifyBus_recordOf_of_keeps bus b f s hf⟩

theorem evalFreq_recordsKept {n clkInHz : Nat} {s t : State} (h : evalFreq n clkInHz s = .next t) : RecordsKept s t := by
  obtain ⟨-, rfl⟩ := evalFreq_next h
  exact ⟨rfl, fun _ => rfl⟩

theorem execDivsel_recordsKept {clkInHz reqHz : Nat} {s t : State} (h : execDivsel clkInHz reqHz s = .next t) :
    RecordsKept s t := by
  obtain ⟨-, rfl⟩ := execDivsel_next h
  exact ⟨rfl, fun _ => rfl⟩

theorem divcfgState_recordsLookedUp {bus clkInHz reqHz : Nat} {old : Bus} {s : State} (hold : s.buses[bus]? = some old)
    (hreq : reqHz ≠ 0) : RecordsLookedUp bus clkInHz reqHz s (divcfgState bus clkInHz reqHz old s) where
  request := hreq
  params := divcfgState_params bus clkInHz reqHz old s
  self := ⟨old.record, by simp [State.recordOf, hold], by rw [divcfgState_recordOf hold, if_pos rfl]⟩
  other b hb := by rw [divcfgState_recordOf hold, if_neg hb]

/-- Everything a completed operation can do to the records. -/
theorem exec_records {i : Instr} {s t : State} (h : exec i s = .next t) :
    (RecordsKept s t ∧ ∀ en b B f, i ≠ .divcfg en b B f) ∨
    ∃ bus clkInHz reqHz, i = .divcfg true bus clkInHz reqHz ∧ RecordsLookedUp bus clkInHz reqHz s t := by
  obtain ⟨n, clkInHz, -, -, rfl, hi⟩ | ⟨clkInHz, reqHz, rfl, -, rfl⟩ | ⟨bus, clkInHz, reqHz, old, rfl, hold, hreq, rfl⟩ :=
    exec_next h
  · exact .inl ⟨⟨rfl, fun _ => rfl⟩, hi⟩
  · exact .inl ⟨⟨rfl, fun _ => rfl⟩, by simp⟩
  · exact .inr ⟨bus, clkInHz, reqHz, rfl, divcfgState_recordsLookedUp hold hreq⟩

theorem runDivact_recordsKept {clkInHz reqHz : Nat} {s t : State} (h : runDivact clkInHz reqHz s = .next t) :
    RecordsKept s t := by
  obtain ⟨u, hsel, hfreq⟩ := runDivact_next h
  exact (execDivsel_recordsKept hsel).trans (evalFreq_recordsKept hfreq)

theorem runAcquire_recordsLookedUp {bus reqHz : Nat} {s t : State} (h : runAcquire bus reqHz s = .next t) :
    ∃ old, s.buses[bus]? = some old ∧ old.window = .idle ∧ RecordsLookedUp bus old.clockHz reqHz s t := by
  obtain ⟨old, u, hold, hidle, hcfg, rfl⟩ := runAcquire_next h
  obtain ⟨_, hold', -, hreq, rfl⟩ := execDivcfg_next hcfg
  exact ⟨old, hold, hidle, (divcfgState_recordsLookedUp hold' hreq).trans_kept
    (modifyBus_recordsKept bus _ (Bus.program_record _))⟩

theorem runRelease_recordsKept {bus : Nat} {s t : State} (h : runRelease bus s = .next t) : RecordsKept s t := by
  obtain ⟨-, -, rfl⟩ := runRelease_next h
  exact modifyBus_recordsKept bus s (Bus.release_record _)

theorem runBusClock_recordsKept {bus hz : Nat} {s t : State} (h : runBusClock bus hz s = .next t) : RecordsKept s t := by
  obtain ⟨-, -, rfl⟩ := runBusClock_next h
  exact modifyBus_recordsKept bus s (Bus.report_record hz)

/-! ### The lookup a step presents -/

/-- What the decoder on the ports reads as a `DIVCFG` the decoder reads so too: what the ports add is a `DIVFREQ`. -/
theorem decode_of_decodeOnPorts_divcfg {P : Params} {hz : Nat} {bits : Bundle} {en : Bool} {bus clkInHz reqHz : Nat}
    (h : decodeOnPorts P hz bits = .instr (.divcfg en bus clkInHz reqHz)) :
    decode P bits = .instr (.divcfg en bus clkInHz reqHz) := by
  obtain hdec | ⟨_, -, -, hi⟩ := decodeOnPorts_instr h
  · exact hdec
  · cases hi

theorem PresentsDivcfg.lookupPresented_eq {bus clkInHz reqHz : Nat} {s : State} (h : PresentsDivcfg bus clkInHz reqHz s) :
    lookupPresented s = some (bus, clkInHz, reqHz) := by
  obtain ⟨bits, rest, hp, hdec⟩ | ⟨rest, old, hp, hold, -, rfl⟩ := h
  · simp only [lookupPresented, hp, hdec]
  · simp only [lookupPresented, hp, hold, Option.map_some]

theorem lookupPresented_bundle_of_ne_divcfg {s : State} {bits : Bundle} {rest : List Line} {i : Instr}
    (hp : s.pending = .bundle bits :: rest) (hdec : decodeOnPorts s.params s.freq.clkInHz bits = .instr i)
    (hi : ∀ en b B f, i ≠ .divcfg en b B f) : lookupPresented s = none := by
  simp only [lookupPresented, hp]
  split
  next en bus clkInHz reqHz hcfg =>
    cases hdec.symm.trans (decodeOnPorts_of_decode hcfg)
    exact absurd rfl (hi en bus clkInHz reqHz)
  next => rfl

/-- Everything a completed step can do to the records: it keeps them and presents no lookup, or it looks up what it presents. -/
theorem step_records {s t : State} (h : step s = .next t) :
    (RecordsKept s t ∧ lookupPresented s = none) ∨
    ∃ bus clkInHz reqHz, PresentsDivcfg bus clkInHz reqHz s ∧ RecordsLookedUp bus clkInHz reqHz s t := by
  have hpop : ∀ rest, RecordsKept s (s.setPending rest) := fun _ => ⟨rfl, fun _ => rfl⟩
  obtain ⟨hp, rfl⟩ | ⟨l, rest, hp, ⟨bits, i, rfl, hdec, hexec⟩ | ⟨-, hcall⟩⟩ := step_next h
  · exact .inl ⟨.refl t, by simp only [lookupPresented, hp]⟩
  · obtain ⟨hkept, hi⟩ | ⟨bus, clkInHz, reqHz, rfl, hlook⟩ := exec_records hexec
    · exact .inl ⟨(hpop rest).trans hkept, lookupPresented_bundle_of_ne_divcfg hp hdec hi⟩
    · exact .inr ⟨bus, clkInHz, reqHz, .inl ⟨bits, rest, hp, decode_of_decodeOnPorts_divcfg hdec⟩,
        hlook.of_setPending⟩
  · obtain ⟨_, _, rfl, hrun⟩ | ⟨bus, reqHz, rfl, hrun⟩ | ⟨_, rfl, hrun⟩ | ⟨_, _, rfl, hrun⟩ := hcall
    · exact .inl ⟨(hpop rest).trans (runDivact_recordsKept hrun), by simp only [lookupPresented, hp]⟩
    · obtain ⟨old, hold, hidle, hlook⟩ := runAcquire_recordsLookedUp hrun
      exact .inr ⟨bus, old.clockHz, reqHz, .inr ⟨rest, old, hp, hold, hidle, rfl⟩,
        hlook.of_setPending⟩
    · exact .inl ⟨(hpop rest).trans (runRelease_recordsKept hrun), by simp only [lookupPresented, hp]⟩
    · exact .inl ⟨(hpop rest).trans (runBusClock_recordsKept hrun), by simp only [lookupPresented, hp]⟩

/-! ### The ghost clock -/

theorem missClock_of_ne_divcfg {i : Instr} (hz : Nat → Nat) (s : State) (hi : ∀ en b B f, i ≠ .divcfg en b B f) :
    missClock hz i s = hz := by
  cases i with
  | divcfg en bus clkInHz reqHz => exact absurd rfl (hi en bus clkInHz reqHz)
  | _ => rfl

theorem missClock_other_bus {bus b : Nat} (hz : Nat → Nat) (en : Bool) (clkInHz reqHz : Nat) (s : State) (hb : b ≠ bus) :
    missClock hz (.divcfg en bus clkInHz reqHz) s b = hz b :=
  if_neg fun h => hb h.1

theorem missClock_hit {bus : Nat} {s : State} {r : BusRecord} (hz : Nat → Nat) (en : Bool) (clkInHz : Nat)
    (hr : s.recordOf bus = some r) : missClock hz (.divcfg en bus clkInHz r.cachedClockHz) s bus = hz bus :=
  if_neg fun h => h.2 r hr rfl

theorem missClock_miss {bus reqHz : Nat} {s : State} {r : BusRecord} (hz : Nat → Nat) (en : Bool) (clkInHz : Nat)
    (hr : s.recordOf bus = some r) (hmiss : reqHz ≠ r.cachedClockHz) :
    missClock hz (.divcfg en bus clkInHz reqHz) s bus = clkInHz :=
  if_pos ⟨rfl, fun r' hr' => by cases hr.symm.trans hr'; exact hmiss.symm⟩

theorem stepMissClock_of_none {s : State} (hz : Nat → Nat) (h : lookupPresented s = none) : stepMissClock hz s = hz := by
  simp only [stepMissClock, h]

theorem stepMissClock_of_presents {bus clkInHz reqHz : Nat} {s : State} (hz : Nat → Nat)
    (h : PresentsDivcfg bus clkInHz reqHz s) : stepMissClock hz s = missClock hz (.divcfg true bus clkInHz reqHz) s := by
  simp only [stepMissClock, h.lookupPresented_eq]

/-! ### Rule R12 -/

/-- After reset every record is unset, so the premise of rule R12 is false (10_state.md rule R18). -/
theorem resetFor_cacheValid (P : Params) (hz : Nat → Nat) : CacheValid hz (State.resetFor P) := by
  intro b r hr hset
  obtain ⟨bus, hbus, rfl⟩ := Option.map_eq_some_iff.mp hr
  have hreset : bus = Bus.reset := List.eq_of_mem_replicate (List.mem_of_getElem? hbus)
  subst hreset
  exact absurd rfl hset

theorem CacheValid.of_recordsKept {hz : Nat → Nat} {s t : State} (hs : CacheValid hz s) (h : RecordsKept s t) :
    CacheValid hz t := by
  intro b r hr hset
  rw [h.records] at hr
  rw [h.params]
  exact hs b r hr hset

/-- A lookup keeps rule R12: a hit leaves record and clock, a miss writes the selector of the clock it is given. -/
theorem CacheValid.of_recordsLookedUp {hz : Nat → Nat} {s t : State} {bus clkInHz reqHz : Nat} (en : Bool)
    (hs : CacheValid hz s) (h : RecordsLookedUp bus clkInHz reqHz s t) :
    CacheValid (missClock hz (.divcfg en bus clkInHz reqHz) s) t := by
  intro b r hr hset
  rw [h.params]
  by_cases hb : b = bus
  · subst hb
    obtain ⟨old, hold, hnew⟩ := h.self
    cases hnew.symm.trans hr
    by_cases hhit : reqHz = old.cachedClockHz
    · subst hhit
      rw [missClock_hit hz en clkInHz hold, BusRecord.lookup_hit]
      exact hs b old hold h.request
    · rw [missClock_miss hz en clkInHz hold hhit, BusRecord.lookup_miss hhit]
  · rw [h.other b hb] at hr
    rw [missClock_other_bus hz en clkInHz reqHz s hb]
    exact hs b r hr hset

theorem exec_keeps_cacheValid {hz : Nat → Nat} {i : Instr} {s t : State} (hs : CacheValid hz s) (h : exec i s = .next t) :
    CacheValid (missClock hz i s) t := by
  obtain ⟨hkept, hi⟩ | ⟨bus, clkInHz, reqHz, rfl, hlook⟩ := exec_records h
  · rw [missClock_of_ne_divcfg hz s hi]
    exact hs.of_recordsKept hkept
  · exact hs.of_recordsLookedUp true hlook

theorem step_keeps_cacheValid {hz : Nat → Nat} {s t : State} (hs : CacheValid hz s) (h : step s = .next t) :
    CacheValid (stepMissClock hz s) t := by
  obtain ⟨hkept, hnone⟩ | ⟨bus, clkInHz, reqHz, hpres, hlook⟩ := step_records h
  · rw [stepMissClock_of_none hz hnone]
    exact hs.of_recordsKept hkept
  · rw [stepMissClock_of_presents hz hpres]
    exact hs.of_recordsLookedUp true hlook

/-- Settles O42: reset leaves every record unset, and an operation or step keeps all records or is one lookup. -/
theorem cachedSelectorIsValidForItsRequest : Obligations.CachedSelectorIsValidForItsRequest := by
  unfold Obligations.CachedSelectorIsValidForItsRequest
  exact ⟨resetFor_cacheValid, fun _ _ _ _ hs h => exec_keeps_cacheValid hs h, fun _ _ _ hs h => step_keeps_cacheValid hs h⟩

end Sys2Proof.Machine
end

section
/-! SUPPORT and PROOF of 20_memory.md rule R21. When `DIVCFG` faults on its index, when it completes, and what its outcome reads:
the parameters and the record of its own bus (`divcfgState_recordOf_congr`, `divcfgState_cfg_congr`). -/

namespace Sys2Proof.Machine

theorem execDivcfg_outOfRange {bus : Nat} {s : State} (clkEn : Bool) (clkInHz reqHz : Nat) (h : s.nbus ≤ bus) :
    execDivcfg clkEn bus clkInHz reqHz s = .fault (.busIndex bus) := by
  have hnone : s.buses[bus]? = none := List.getElem?_eq_none h
  simp only [execDivcfg, hnone, raise]

/-- The converse of `execDivcfg_next`. -/
theorem execDivcfg_completes {bus reqHz : Nat} {old : Bus} {s : State} (clkInHz : Nat) (hold : s.buses[bus]? = some old)
    (hreq : reqHz ≠ 0) : execDivcfg true bus clkInHz reqHz s = .next (divcfgState bus clkInHz reqHz old s) := by
  simp only [execDivcfg, hold, decide_eq_true hreq, require_true, divcfgState]

theorem State.recordOf_of_getElem? {b : Nat} {bus : Bus} {s : State} (h : s.buses[b]? = some bus) :
    s.recordOf b = some bus.record := by
  rw [State.recordOf, h, Option.map_some]

/-- The ports after a completed `DIVCFG` read the parameters and the bus's record only. -/
theorem divcfgState_cfg_congr {s u : State} {old old' : Bus} (bus clkInHz reqHz : Nat) (hparams : u.params = s.params)
    (hrecord : old'.record = old.record) :
    (divcfgState bus clkInHz reqHz old' u).cfg = (divcfgState bus clkInHz reqHz old s).cfg := by
  simp only [divcfgState, State.setCfg_cfg, hparams, hrecord]

/-- The record after a completed `DIVCFG` on its bus reads the parameters and the bus's record only. -/
theorem divcfgState_recordOf_congr {s u : State} {old old' : Bus} {bus : Nat} (clkInHz reqHz : Nat)
    (hold : s.buses[bus]? = some old) (hold' : u.buses[bus]? = some old') (hparams : u.params = s.params)
    (hrecord : old'.record = old.record) :
    (divcfgState bus clkInHz reqHz old' u).recordOf bus = (divcfgState bus clkInHz reqHz old s).recordOf bus := by
  rw [divcfgState_recordOf hold, divcfgState_recordOf hold', if_pos rfl, if_pos rfl, hparams, hrecord]

/-- Settles O34: a completed `DIVCFG` is one lookup on its bus, which any state with that bus's record repeats. -/
theorem divcfgTouchesItsOwnBusOnly : Obligations.DivcfgTouchesItsOwnBusOnly := by
  unfold Obligations.DivcfgTouchesItsOwnBusOnly
  intro s en b clkInHz reqHz
  refine ⟨execDivcfg_outOfRange en clkInHz reqHz, fun t h => ?_⟩
  obtain ⟨old, hold, rfl, hreq, rfl⟩ := execDivcfg_next h
  refine ⟨fun b' hb' => divcfgState_getElem?_ne hb', fun u hparams hrec => ?_⟩
  have hu : u.recordOf b = some old.record := hrec.trans (State.recordOf_of_getElem? hold)
  obtain ⟨old', hold', hrecord⟩ := Option.map_eq_some_iff.mp hu
  exact ⟨_, execDivcfg_completes clkInHz hold' hreq, divcfgState_recordOf_congr clkInHz reqHz hold hold' hparams hrecord,
    divcfgState_cfg_congr b clkInHz reqHz hparams hrecord⟩

end Sys2Proof.Machine
end

section
/-! SUPPORT and PROOF of 30_encoding.md rules R30 and R31. The encoder is characterised once (`selOfFactor_eq_some_iff`: it gives
`n` for a factor exactly where `n` is in range and the factor is `2^(n+1)`); both rules read it off. -/

namespace Sys2Proof

@[simp] theorem msb_two_pow (k : Nat) : msb (2 ^ k) = k := Nat.log2_two_pow

@[simp] theorem isPow2_two_pow (k : Nat) : isPow2 (2 ^ k) = true := (isPow2_iff _).mpr (by rw [msb_two_pow])

/-- The selector encoding in both directions. -/
theorem selOfFactor_eq_some_iff {P : Params} {factor n : Nat} :
    selOfFactor P factor = some n ↔ n ≤ P.maxDivider ∧ factor = 2 ^ (n + 1) := by
  constructor
  · intro h
    unfold selOfFactor at h
    split at h
    next hcond =>
      obtain ⟨hpow, hlo, hhi⟩ := hcond
      cases h
      exact ⟨by omega, by rw [Nat.sub_add_cancel hlo]; exact (isPow2_iff factor).mp hpow⟩
    next => cases h
  · rintro ⟨hn, rfl⟩
    simp [selOfFactor, hn]

/-- Factor 1 and every factor that is no power of two: none is `2^(n+1)`. -/
theorem selOfFactor_eq_none {P : Params} {factor : Nat} (h : ∀ n, factor ≠ 2 ^ (n + 1)) : selOfFactor P factor = none :=
  Option.eq_none_iff_forall_ne_some.mpr fun n hn => h n (selOfFactor_eq_some_iff.mp hn).2

/-- Settles O7: every clause about the encoder is read off `selOfFactor_eq_some_iff`. -/
theorem selectorCodesEncodeFactors : Obligations.SelectorCodesEncodeFactors := by
  unfold Obligations.SelectorCodesEncodeFactors
  intro P
  refine ⟨⟨P.selw_pos, lt_two_pow_portWidth _, fun _ => portWidth_le⟩, fun n hn => ?_, fun factor n h => ?_,
    fun k hlo hhi => ?_, selOfFactor_eq_none fun n => ?_, fun factor h => selOfFactor_eq_none fun n => h (n + 1), by decide⟩
  · exact ⟨factorOf_eq n, selOfFactor_eq_some_iff.mpr ⟨hn, factorOf_eq n⟩⟩
  · obtain ⟨hn, rfl⟩ := selOfFactor_eq_some_iff.mp h
    exact ⟨hn, factorOf_eq n⟩
  · exact selOfFactor_eq_some_iff.mpr ⟨by omega, by rw [Nat.sub_add_cancel hlo]⟩
  · exact (Nat.one_lt_two_pow n.succ_ne_zero).ne

/-- Where `MAX_DIVIDER + 1` is no power of two it is itself a code of the port. -/
theorem fits_selw_maxDivider_succ {P : Params} (h : ∀ k, P.maxDivider + 1 ≠ 2 ^ k) : Fits P.selw (P.maxDivider + 1) :=
  lt_of_le_of_ne (lt_two_pow_portWidth P.maxDivider) (h P.selw)

/-- Under P0 the codes of the port are the selectors in range. -/
theorem two_pow_selw_p0 : 2 ^ Config.p0.selw = Config.p0.maxDivider + 1 := by decide

namespace Machine

theorem evalFreq_outOfRange {n : Nat} {s : State} (clkInHz : Nat) (h : s.maxDivider < n) :
    evalFreq n clkInHz s = .fault (.selectorRange n) := by
  rw [evalFreq_eq, if_neg (Nat.not_le.mpr h)]

theorem execDivsel_sel_le {clkInHz reqHz : Nat} {s t : State} (h : execDivsel clkInHz reqHz s = .next t) :
    t.sel.sel ≤ s.maxDivider := by
  obtain ⟨-, rfl⟩ := execDivsel_next h
  exact selector_le s.params clkInHz reqHz

/-- The invariant is needed for a hit, which returns the record's selector as it stands. -/
theorem execDivcfg_sel_le {clkEn : Bool} {bus clkInHz reqHz : Nat} {s t : State} (hs : s.Inv)
    (h : execDivcfg clkEn bus clkInHz reqHz s = .next t) : t.cfg.sel ≤ s.maxDivider := by
  obtain ⟨old, hold, -, hreq, rfl⟩ := execDivcfg_next h
  exact BusRecord.lookup_cachedDivider_le (hs.buses old (List.mem_of_getElem? hold)).record hreq

/-- Settles O8: `MAX_DIVIDER + 1` is such a code, and neither the encoder nor a completed operation leaves the range. -/
theorem reservedSelectorCodes : Obligations.ReservedSelectorCodes := by
  unfold Obligations.ReservedSelectorCodes
  refine ⟨fun P h => ⟨_, Nat.lt_succ_self _, fits_selw_maxDivider_succ h⟩, fun P n factor hn h => ?_,
    fun _ _ clkInHz hn => evalFreq_outOfRange clkInHz hn, fun _ _ _ _ h => execDivsel_sel_le h,
    fun _ _ _ _ _ _ hs h => execDivcfg_sel_le hs h, fun n hn => ?_⟩
  · exact Nat.not_le.mpr hn (selOfFactor_eq_some_iff.mp h).1
  · exact Nat.le_of_lt_succ (hn.trans_eq two_pow_selw_p0)

end Machine
end Sys2Proof
end

section
/-! SUPPORT and PROOF of 40_divfreq.md rules R41, R42, R43 and R45. A completed `DIVFREQ` is said once in both directions
(`exec_divfreq_eq_next_iff`), and its ports carry exactly the rational `B / 2^(n+1)` (`FreqPorts.of_outputHz_eq`); the laws of the
divider are then laws of `outputHz`. -/

namespace Sys2Proof.Machine

/-! ### Completion and ports -/

theorem exec_divfreq_eq_next {n : Nat} {s : State} (clkInHz : Nat) (h : n ≤ s.maxDivider) :
    exec (.divfreq n clkInHz) s = .next (s.setFreq (FreqPorts.of n clkInHz)) :=
  (evalFreq_eq n clkInHz s).trans (if_pos h)

theorem exec_divfreq_eq_next_iff {n clkInHz : Nat} {s t : State} :
    exec (.divfreq n clkInHz) s = .next t ↔ n ≤ s.maxDivider ∧ t = s.setFreq (FreqPorts.of n clkInHz) :=
  ⟨evalFreq_next, fun ⟨h, ht⟩ => ht ▸ exec_divfreq_eq_next clkInHz h⟩

/-- No output of `DIVFREQ` is wider than its port (40_divfreq.md rule R41). -/
theorem divfreq_outputs_fit {w m n clkInHz : Nat} (hn : n ≤ m) (hB : Fits w clkInHz) :
    Fits (m + 2) (2 ^ (n + 1)) ∧ Fits w (clkInHz / 2 ^ (n + 1)) ∧ Fits (m + 1) (clkInHz % 2 ^ (n + 1)) := by
  refine ⟨Nat.pow_lt_pow_right Nat.one_lt_two (by omega), (Nat.div_le_self _ _).trans_lt hB, ?_⟩
  calc clkInHz % 2 ^ (n + 1) < 2 ^ (n + 1) := Nat.mod_lt _ (by positivity)
    _ ≤ 2 ^ (m + 1) := Nat.pow_le_pow_right Nat.two_pos (by omega)

/-- Settles O9: `evalFreq` decides the range, and its ports are the arithmetic of R41. -/
theorem divfreqDividesTheInputClock : Obligations.DivfreqDividesTheInputClock := by
  unfold Obligations.DivfreqDividesTheInputClock
  intro s n clkInHz
  refine ⟨fun hn => ⟨?_, divfreq_outputs_fit hn⟩, evalFreq_outOfRange clkInHz⟩
  rw [exec_divfreq_eq_next clkInHz hn, FreqPorts.of_eq, State.setFreq]

/-- A floor together with its remainder over the divisor is the exact quotient. -/
theorem cast_div_add_cast_mod_div_pow (clkInHz k : Nat) :
    ((clkInHz / 2 ^ k : Nat) : ℚ) + ((clkInHz % 2 ^ k : Nat) : ℚ) / 2 ^ k = (clkInHz : ℚ) / 2 ^ k := by
  have hdiv : ((clkInHz / 2 ^ k : Nat) : ℚ) * 2 ^ k + ((clkInHz % 2 ^ k : Nat) : ℚ) = clkInHz :=
    mod_cast Nat.div_add_mod' clkInHz (2 ^ k)
  rw [← hdiv, add_div, mul_div_cancel_right₀ _ (by positivity)]

/-- The ports carry the exact output frequency (40_divfreq.md rule R42). -/
theorem FreqPorts.of_outputHz_eq (n clkInHz : Nat) : (FreqPorts.of n clkInHz).outputHz = Machine.outputHz clkInHz n := by
  rw [FreqPorts.of_eq, FreqPorts.outputHz, Nat.cast_pow, Nat.cast_ofNat, cast_div_add_cast_mod_div_pow, Machine.outputHz]

theorem exec_divfreq_outputHz {n clkInHz : Nat} {s t : State} (h : exec (.divfreq n clkInHz) s = .next t) :
    t.freq.outputHz = outputHz clkInHz n := by
  obtain ⟨-, rfl⟩ := exec_divfreq_eq_next_iff.mp h
  exact FreqPorts.of_outputHz_eq n clkInHz

/-- Settles O11: the four facts about a floor and its remainder, read off the ports. -/
theorem outputPortsCarryTheExactQuotient : Obligations.OutputPortsCarryTheExactQuotient := by
  unfold Obligations.OutputPortsCarryTheExactQuotient
  intro s t n clkInHz h
  obtain ⟨-, rfl⟩ := exec_divfreq_eq_next_iff.mp h
  rw [State.setFreq_freq, FreqPorts.of_eq]
  exact ⟨rfl, rfl, cast_div_add_cast_mod_div_pow clkInHz (n + 1), (Nat.div_add_mod' _ _).symm⟩

/-! ### Comparison with a request -/

theorem outputHz_le_natCast_iff (clkInHz n reqHz : Nat) :
    outputHz clkInHz n ≤ (reqHz : ℚ) ↔ clkInHz ≤ reqHz * 2 ^ (n + 1) := by
  rw [outputHz, div_le_iff₀ (by positivity)]
  norm_cast

theorem outputHz_lt_natCast_iff (clkInHz n reqHz : Nat) :
    outputHz clkInHz n < (reqHz : ℚ) ↔ clkInHz < reqHz * 2 ^ (n + 1) := by
  rw [outputHz, div_lt_iff₀ (by positivity)]
  norm_cast

/-- Comparing the floor tests the output against the next whole hertz. -/
theorem clkOutHz_le_iff_outputHz_lt (clkInHz n reqHz : Nat) :
    clkInHz / 2 ^ (n + 1) ≤ reqHz ↔ outputHz clkInHz n < (reqHz : ℚ) + 1 := by
  rw [← Nat.lt_succ_iff, Nat.div_lt_iff_lt_mul (by positivity), ← outputHz_lt_natCast_iff, Nat.cast_succ]

/-- Settles O12: the comparison of rationals cross-multiplied, and vector F15 of the spec. -/
theorem doesNotExceedIsCrossMultiplied : Obligations.DoesNotExceedIsCrossMultiplied := by
  unfold Obligations.DoesNotExceedIsCrossMultiplied
  refine ⟨fun clkInHz n reqHz => ⟨outputHz_le_natCast_iff .., ?_, clkOutHz_le_iff_outputHz_lt ..⟩, by decide,
    by norm_num [outputHz], by decide⟩
  exact (outputHz_le_natCast_iff clkInHz n reqHz).trans Nat.not_lt.symm

/-! ### Laws of the divider -/

theorem outputHz_succ (clkInHz n : Nat) : outputHz clkInHz (n + 1) = outputHz clkInHz n / 2 := by
  rw [outputHz, outputHz, pow_succ 2 (n + 1), div_mul_eq_div_div]

theorem outputHz_pos {clkInHz : Nat} (n : Nat) (h : 0 < clkInHz) : 0 < outputHz clkInHz n :=
  div_pos (Nat.cast_pos.mpr h) (by positivity)

theorem outputHz_succ_lt {clkInHz : Nat} (n : Nat) (h : 0 < clkInHz) : outputHz clkInHz (n + 1) < outputHz clkInHz n := by
  rw [outputHz_succ]
  exact half_lt_self (outputHz_pos n h)

theorem outputHz_mono {clkInHz clkInHz' : Nat} (n : Nat) (h : clkInHz ≤ clkInHz') :
    outputHz clkInHz n ≤ outputHz clkInHz' n :=
  div_le_div_of_nonneg_right (Nat.cast_le.mpr h) (by positivity)

theorem outputHz_mul (k clkInHz n : Nat) : outputHz (k * clkInHz) n = k * outputHz clkInHz n := by
  rw [outputHz, outputHz, Nat.cast_mul, mul_div_assoc]

/-- The only whole ratio of a clock to the output of selector `n` is the factor of `n`. -/
theorem outputHz_eq_div_iff {clkInHz : Nat} (n k : Nat) (h : 0 < clkInHz) :
    outputHz clkInHz n = (clkInHz : ℚ) / k ↔ k = 2 ^ (n + 1) := by
  rw [outputHz, div_eq_mul_inv, div_eq_mul_inv, mul_right_inj' (Nat.cast_ne_zero.mpr h.ne'), inv_inj, eq_comm]
  norm_cast

/-- The outputs `DIVFREQ` can give are those of the selectors in range. -/
theorem exists_exec_divfreq_outputHz_iff (s : State) (clkInHz : Nat) (q : ℚ) :
    (∃ n t, exec (.divfreq n clkInHz) s = .next t ∧ t.freq.outputHz = q) ↔
      ∃ n, n ≤ s.maxDivider ∧ outputHz clkInHz n = q := by
  constructor
  · rintro ⟨n, t, h, rfl⟩
    exact ⟨n, (exec_divfreq_eq_next_iff.mp h).1, (exec_divfreq_outputHz h).symm⟩
  · rintro ⟨n, hn, rfl⟩
    exact ⟨n, _, exec_divfreq_eq_next clkInHz hn, FreqPorts.of_outputHz_eq n clkInHz⟩

/-- Settles O14: each law of the ports is the law of `outputHz`. -/
theorem dividerLaws : Obligations.DividerLaws := by
  unfold Obligations.DividerLaws
  intro s clkInHz
  refine ⟨fun n hn => ?_, fun n clkInHz' t u hle ht hu => ?_, fun q => ?_, fun k n t hpos hk ht heq => ?_,
    fun k n t u _ ht hu => ?_⟩
  · refine ⟨_, _, exec_divfreq_eq_next clkInHz (by omega), exec_divfreq_eq_next clkInHz hn, ?_⟩
    simp only [State.setFreq_freq, FreqPorts.of_outputHz_eq]
    exact ⟨outputHz_succ clkInHz n, outputHz_succ_lt n⟩
  · rw [exec_divfreq_outputHz ht, exec_divfreq_outputHz hu]
    exact outputHz_mono n hle
  · rw [exists_exec_divfreq_outputHz_iff]
    constructor
    · rintro ⟨n, hn, rfl⟩
      exact ⟨n + 1, by omega, by omega, rfl⟩
    · rintro ⟨k, hlo, hhi, rfl⟩
      exact ⟨k - 1, by omega, by rw [outputHz, Nat.sub_add_cancel hlo]⟩
  · rw [exec_divfreq_outputHz ht, outputHz_eq_div_iff n k hpos] at heq
    obtain rfl | hk := hk
    · exact (Nat.one_lt_two_pow n.succ_ne_zero).ne heq
    · exact hk (n + 1) heq
  · rw [exec_divfreq_outputHz ht, exec_divfreq_outputHz hu, outputHz_mul]

end Sys2Proof.Machine
end

section
/-! SUPPORT and PROOF of 41_divsel.md rules R50 to R52 and R56 to R66. The selector is `k*` clamped (`selector_eq_min_kStar`), and
both the tests on `Q` and the comparison with a request are comparisons of `B·2^S` with a multiple of `2f` (`ratioQ_le_iff`,
`exceeds_iff`): an output exceeds the request where `2^(S+n)` is below `Q`, or meets it and the division leaves a remainder.
Every rule is read off these. -/

namespace Sys2Proof

/-! ### The fixed-point ratio -/

/-- A multiple of the divisor is below the dividend where its quotient is, or where only the remainder is above it. -/
theorem mul_lt_iff_lt_div_or {d : Nat} (hd : 0 < d) (a m : Nat) : d * m < a ↔ m < a / d ∨ a / d = m ∧ a % d ≠ 0 := by
  have hdiv : d * (a / d) + a % d = a := Nat.div_add_mod a d
  have hrem : a % d < d := Nat.mod_lt a hd
  obtain hlt | rfl | hgt := Nat.lt_trichotomy m (a / d)
  · have : d * m < d * (a / d) := Nat.mul_lt_mul_of_pos_left hlt hd
    omega
  · omega
  · have : d * (a / d + 1) ≤ d * m := Nat.mul_le_mul_left d hgt
    rw [Nat.mul_add, Nat.mul_one] at this
    omega

theorem ratioQ_le_iff (P : Params) (clkInHz m : Nat) {reqHz : Nat} (h : reqHz ≠ 0) :
    ratioQ P clkInHz reqHz ≤ m ↔ clkInHz * 2 ^ P.s < 2 * reqHz * (m + 1) := by
  rw [ratioQ_eq, ← Nat.lt_succ_iff, Nat.div_lt_iff_lt_mul (by omega), Nat.mul_comm (2 * reqHz)]

theorem ratioQ_mono_clkInHz (P : Params) {clkInHz clkInHz' : Nat} (reqHz : Nat) (h : clkInHz ≤ clkInHz') :
    ratioQ P clkInHz reqHz ≤ ratioQ P clkInHz' reqHz := by
  rw [ratioQ_eq, ratioQ_eq]
  exact Nat.div_le_div_right (Nat.mul_le_mul_right _ h)

theorem ratioQ_anti_reqHz (P : Params) (clkInHz : Nat) {reqHz reqHz' : Nat} (h0 : reqHz ≠ 0) (h : reqHz ≤ reqHz') :
    ratioQ P clkInHz reqHz' ≤ ratioQ P clkInHz reqHz := by
  rw [ratioQ_eq, ratioQ_eq]
  exact Nat.div_le_div_left (by omega) (by omega)

theorem ratioQ_scale (P : Params) (clkInHz reqHz : Nat) {k : Nat} (hk : 1 ≤ k) :
    ratioQ P (k * clkInHz) (k * reqHz) = ratioQ P clkInHz reqHz := by
  rw [ratioQ_eq, ratioQ_eq, Nat.mul_assoc, Nat.mul_left_comm 2, Nat.mul_div_mul_left _ _ hk]

/-- Where `2f` divides `B` the ratio is exact. -/
theorem ratioQ_multiple (P : Params) (m : Nat) {reqHz : Nat} (h : reqHz ≠ 0) :
    ratioQ P (m * (2 * reqHz)) reqHz = m * 2 ^ P.s := by
  rw [ratioQ_eq, Nat.mul_right_comm, Nat.mul_div_cancel _ (by omega)]

/-! ### The selector as the clamped `k*` -/

/-- The algorithm of R52 to R54 computes `k*` (41_divsel.md rule R59). -/
theorem unclampedSel_ratioQ (P : Params) (clkInHz reqHz : Nat) :
    unclampedSel P (ratioQ P clkInHz reqHz) = kStar P clkInHz reqHz :=
  eq_of_forall_ge_iff fun k => (unclampedSel_le_iff P _ k).trans (kStar_le_iff P clkInHz reqHz k).symm

theorem selector_eq_min_kStar (P : Params) (clkInHz reqHz : Nat) :
    selector P clkInHz reqHz = min (kStar P clkInHz reqHz) P.maxDivider := by
  rw [selector, unclampedSel_ratioQ]

theorem selector_of_clamped {P : Params} {clkInHz reqHz : Nat} (h : Clamped P clkInHz reqHz) :
    selector P clkInHz reqHz = P.maxDivider := by
  rw [selector_eq_min_kStar, Nat.min_eq_right h.le]

theorem selector_of_not_clamped {P : Params} {clkInHz reqHz : Nat} (h : ¬ Clamped P clkInHz reqHz) :
    selector P clkInHz reqHz = kStar P clkInHz reqHz := by
  rw [selector_eq_min_kStar, Nat.min_eq_left (Nat.not_lt.mp h)]

theorem lt_kStar_iff (P : Params) (clkInHz reqHz k : Nat) :
    k < kStar P clkInHz reqHz ↔ 2 ^ (P.s + k) < ratioQ P clkInHz reqHz := by
  rw [← Nat.not_le, kStar_le_iff, Nat.not_le]

theorem kStar_eq_zero_iff (P : Params) (clkInHz reqHz : Nat) :
    kStar P clkInHz reqHz = 0 ↔ ratioQ P clkInHz reqHz ≤ 2 ^ P.s := by
  rw [← Nat.le_zero, kStar_le_iff, Nat.add_zero]

theorem kStar_eq_succ_iff (P : Params) (clkInHz reqHz k : Nat) :
    kStar P clkInHz reqHz = k + 1 ↔
      2 ^ (P.s + k) < ratioQ P clkInHz reqHz ∧ ratioQ P clkInHz reqHz ≤ 2 ^ (P.s + (k + 1)) := by
  rw [← lt_kStar_iff, ← kStar_le_iff]
  omega

theorem kStar_of_ratioQ_eq_two_pow {P : Params} {clkInHz reqHz k : Nat} (h : ratioQ P clkInHz reqHz = 2 ^ (P.s + k)) :
    kStar P clkInHz reqHz = k := by
  refine eq_of_forall_ge_iff fun j => ?_
  rw [kStar_le_iff, h, Nat.pow_le_pow_iff_right (by omega)]
  omega

/-- The selector depends on the ratio alone, and is monotone in it. -/
theorem selector_mono {P : Params} {clkInHz reqHz clkInHz' reqHz' : Nat}
    (h : ratioQ P clkInHz reqHz ≤ ratioQ P clkInHz' reqHz') :
    selector P clkInHz reqHz ≤ selector P clkInHz' reqHz' := by
  rw [selector_eq_min_kStar, selector_eq_min_kStar]
  exact min_le_min_right _ ((kStar_le_iff ..).mpr (h.trans ((kStar_le_iff ..).mp le_rfl)))

theorem selector_eq_zero_of_ratioQ_le {P : Params} {clkInHz reqHz : Nat} (h : ratioQ P clkInHz reqHz ≤ 2 ^ P.s) :
    selector P clkInHz reqHz = 0 := by
  rw [selector_eq_min_kStar, (kStar_eq_zero_iff ..).mpr h, Nat.zero_min]

theorem selector_of_ratioQ_eq_two_pow {P : Params} {clkInHz reqHz k : Nat}
    (h : ratioQ P clkInHz reqHz = 2 ^ (P.s + k)) : selector P clkInHz reqHz = min k P.maxDivider := by
  rw [selector_eq_min_kStar, kStar_of_ratioQ_eq_two_pow h]

theorem selector_of_ratioQ_between {P : Params} {clkInHz reqHz k : Nat} (hlo : 2 ^ (P.s + k) < ratioQ P clkInHz reqHz)
    (hhi : ratioQ P clkInHz reqHz ≤ 2 ^ (P.s + (k + 1))) : selector P clkInHz reqHz = min (k + 1) P.maxDivider := by
  rw [selector_eq_min_kStar, (kStar_eq_succ_iff ..).mpr ⟨hlo, hhi⟩]

/-- The document's example: `B/(2f) = 3` needs the factor 8, whatever `S` is. -/
theorem selector_48MHz_8MHz {P : Params} (h : 2 ≤ P.maxDivider) : selector P 48000000 8000000 = 2 := by
  have hq : ratioQ P 48000000 8000000 = 3 * 2 ^ P.s := ratioQ_multiple P 3 (reqHz := 8000000) (by omega)
  have hpos : 0 < 2 ^ P.s := by positivity
  rw [selector_of_ratioQ_between (k := 1) (by rw [hq, pow_add]; omega) (by rw [hq, pow_add]; omega), Nat.min_eq_left h]

/-- `B/(2f) = 2` at the literal threshold: the fixed-point test does not take it for selector 0 (41_divsel.md rule R52). -/
theorem selector_48MHz_12MHz {P : Params} (h : 1 ≤ P.maxDivider) : selector P 48000000 12000000 = 1 := by
  have hq : ratioQ P 48000000 12000000 = 2 ^ (P.s + 1) :=
    (ratioQ_multiple P 2 (reqHz := 12000000) (by omega)).trans (pow_succ' 2 P.s).symm
  rw [selector_of_ratioQ_eq_two_pow hq, Nat.min_eq_left h]

/-! ### Comparison with the request -/

/-- The exceed test on the operands, scaled to those of the division (41_divsel.md rule R60(c)). -/
theorem exceeds_iff_scaled (s clkInHz n reqHz : Nat) :
    Exceeds clkInHz n reqHz ↔ reqHz * 2 ^ (s + n + 1) < clkInHz * 2 ^ s := by
  rw [Nat.add_assoc, Nat.add_comm s, pow_add, ← Nat.mul_assoc, Nat.mul_lt_mul_right (by positivity)]

/-- What the truncation hides: a ratio that meets a power of two with a remainder. -/
theorem exceeds_iff (P : Params) (clkInHz n : Nat) {reqHz : Nat} (h : reqHz ≠ 0) :
    Exceeds clkInHz n reqHz ↔ 2 ^ (P.s + n) < ratioQ P clkInHz reqHz ∨
      ratioQ P clkInHz reqHz = 2 ^ (P.s + n) ∧ Inexact P clkInHz reqHz := by
  rw [exceeds_iff_scaled P.s, ratioQ_eq, ← mul_lt_iff_lt_div_or (by omega), pow_succ', Nat.mul_left_comm, Nat.mul_assoc]

theorem exceeds_of_lt_kStar {P : Params} {clkInHz reqHz m : Nat} (h : reqHz ≠ 0) (hm : m < kStar P clkInHz reqHz) :
    Exceeds clkInHz m reqHz :=
  (exceeds_iff P clkInHz m h).mpr (.inl ((lt_kStar_iff ..).mp hm))

/-- At `k*` itself only the truncation window exceeds (41_divsel.md rule R60(a)). -/
theorem exceeds_kStar_iff (P : Params) (clkInHz : Nat) {reqHz : Nat} (h : reqHz ≠ 0) :
    Exceeds clkInHz (kStar P clkInHz reqHz) reqHz ↔
      ratioQ P clkInHz reqHz = 2 ^ (P.s + kStar P clkInHz reqHz) ∧ Inexact P clkInHz reqHz := by
  rw [exceeds_iff P clkInHz _ h, ← lt_kStar_iff, or_iff_right (Nat.lt_irrefl _)]

theorem not_exceeds_of_kStar_lt {P : Params} {clkInHz reqHz m : Nat} (h : reqHz ≠ 0) (hm : kStar P clkInHz reqHz < m) :
    ¬ Exceeds clkInHz m reqHz := by
  have hq : ratioQ P clkInHz reqHz < 2 ^ (P.s + m) :=
    ((kStar_le_iff ..).mp le_rfl).trans_lt (Nat.pow_lt_pow_right Nat.one_lt_two (by omega))
  rw [exceeds_iff P clkInHz m h]
  omega

/-- A smaller selector gives a faster clock. -/
theorem exceeds_of_le {clkInHz reqHz m n : Nat} (hle : m ≤ n) (h : Exceeds clkInHz n reqHz) : Exceeds clkInHz m reqHz :=
  (Nat.mul_le_mul_left reqHz (Nat.pow_le_pow_right Nat.two_pos (Nat.succ_le_succ hle))).trans_lt h

/-- Outside the window `k*` is the smallest selector that does not exceed. -/
theorem not_exceeds_iff_kStar_le {P : Params} {clkInHz reqHz : Nat} (h : reqHz ≠ 0)
    (hmeets : ¬ Exceeds clkInHz (kStar P clkInHz reqHz) reqHz) (m : Nat) :
    ¬ Exceeds clkInHz m reqHz ↔ kStar P clkInHz reqHz ≤ m :=
  ⟨fun hm => Nat.not_lt.mp fun hlt => hm (exceeds_of_lt_kStar h hlt), fun hle hm => hmeets (exceeds_of_le hle hm)⟩

/-- In the window `k*` is one below it. -/
theorem not_exceeds_iff_kStar_lt {P : Params} {clkInHz reqHz : Nat} (h : reqHz ≠ 0)
    (hexc : Exceeds clkInHz (kStar P clkInHz reqHz) reqHz) (m : Nat) :
    ¬ Exceeds clkInHz m reqHz ↔ kStar P clkInHz reqHz < m :=
  ⟨fun hm => Nat.not_le.mp fun hle => hm (exceeds_of_le hle hexc), not_exceeds_of_kStar_lt h⟩

/-- Below the returned selector every output exceeds the request, clamped or not. -/
theorem exceeds_of_lt_selector {P : Params} {clkInHz reqHz m : Nat} (h : reqHz ≠ 0) (hm : m < selector P clkInHz reqHz) :
    Exceeds clkInHz m reqHz := by
  rw [selector_eq_min_kStar] at hm
  exact exceeds_of_lt_kStar h (hm.trans_le (Nat.min_le_left _ _))

/-- The bound on any overshoot, on the operands (41_divsel.md rule R60(b)). -/
theorem ratioQ_le_two_pow_iff (P : Params) (clkInHz n : Nat) {reqHz : Nat} (h : reqHz ≠ 0) :
    ratioQ P clkInHz reqHz ≤ 2 ^ (P.s + n) ↔ clkInHz * 2 ^ P.s < reqHz * (2 ^ (P.s + n + 1) + 2) := by
  rw [ratioQ_le_iff P _ _ h, show 2 * reqHz * (2 ^ (P.s + n) + 1) = reqHz * (2 ^ (P.s + n + 1) + 2) by ring]

/-- The same bound on the output clock. -/
theorem ratioQ_le_two_pow_iff_outputHz (P : Params) (clkInHz n : Nat) {reqHz : Nat} (h : reqHz ≠ 0) :
    ratioQ P clkInHz reqHz ≤ 2 ^ (P.s + n) ↔
      Machine.outputHz clkInHz n < (reqHz : ℚ) * (1 + 1 / 2 ^ (P.s + n)) := by
  have hscale : (reqHz : ℚ) * (1 + 1 / 2 ^ (P.s + n)) * 2 ^ (n + 1) * 2 ^ P.s = reqHz * (2 ^ (P.s + n + 1) + 2) := by
    rw [pow_add 2 P.s n]
    field_simp
    ring
  rw [ratioQ_le_two_pow_iff P _ _ h, Machine.outputHz, div_lt_iff₀ (by positivity),
    ← mul_lt_mul_iff_left₀ (show (0 : ℚ) < 2 ^ P.s by positivity), hscale]
  norm_cast

theorem logb_ratio_le_iff {q : Nat} (hq : 0 < q) (s k : Nat) :
    Real.logb 2 ((q : ℝ) / 2 ^ s) ≤ k ↔ q ≤ 2 ^ (s + k) := by
  rw [Real.logb_le_iff_le_rpow one_lt_two (by positivity), Real.rpow_natCast, div_le_iff₀ (by positivity), ← pow_add,
    Nat.add_comm k]
  norm_cast

/-- Above the threshold `k*` is the ceiling of the logarithm of the ratio (41_divsel.md rule R59). -/
theorem kStar_eq_ceil_logb {P : Params} {clkInHz reqHz : Nat} (h : 2 ^ P.s < ratioQ P clkInHz reqHz) :
    (kStar P clkInHz reqHz : ℤ) = ⌈Real.logb 2 ((ratioQ P clkInHz reqHz : ℝ) / 2 ^ P.s)⌉ := by
  have hq : 0 < ratioQ P clkInHz reqHz := Nat.zero_lt_of_lt h
  obtain ⟨k, hk⟩ := Nat.exists_eq_succ_of_ne_zero (mt (kStar_eq_zero_iff ..).mp (Nat.not_le.mpr h))
  obtain ⟨hlo, hhi⟩ := (kStar_eq_succ_iff ..).mp hk
  rw [hk, eq_comm, Int.ceil_eq_iff]
  constructor
  · have hpred : ((k.succ : ℤ) : ℝ) - 1 = k := by
      push_cast
      ring
    rwa [hpred, ← not_le, logb_ratio_le_iff hq, Nat.not_le]
  · exact (logb_ratio_le_iff hq P.s (k + 1)).mpr hhi

/-! ### Widths and wrapping -/

/-- Shifted into `W` bits: also where `S > W`, which leaves `B = 0` alone (41_divsel.md rule R65). -/
theorem mul_two_pow_lt_of_lt {w s clkInHz : Nat} (h : clkInHz < 2 ^ (w - s)) : clkInHz * 2 ^ s < 2 ^ w := by
  obtain hs | hs := Nat.le_total s w
  · calc clkInHz * 2 ^ s < 2 ^ (w - s) * 2 ^ s := Nat.mul_lt_mul_of_pos_right h (by positivity)
      _ = 2 ^ w := by rw [← pow_add, Nat.sub_add_cancel hs]
  · rw [Nat.sub_eq_zero_of_le hs, pow_zero, Nat.lt_one_iff] at h
    rw [h, Nat.zero_mul]
    positivity

theorem ratioQ_lt_of_fits {P : Params} {clkInHz reqHz : Nat} (hw : 1 ≤ P.w) (hB : Fits P.w clkInHz) (hf : reqHz ≠ 0) :
    ratioQ P clkInHz reqHz < 2 ^ (P.w + P.s - 1) := by
  rw [ratioQ_eq, Nat.div_lt_iff_lt_mul (by omega)]
  calc clkInHz * 2 ^ P.s < 2 ^ P.w * 2 ^ P.s := Nat.mul_lt_mul_of_pos_right hB (by positivity)
    _ = 2 ^ (P.w + P.s - 1) * 2 := by rw [← pow_add, ← pow_succ]; congr 1; omega
    _ ≤ 2 ^ (P.w + P.s - 1) * (2 * reqHz) := Nat.mul_le_mul_left _ (by omega)

theorem msb_lt_of_lt_two_pow {q k : Nat} (h0 : q ≠ 0) (h : q < 2 ^ k) : msb q < k := (Nat.log2_lt h0).mpr h

/-- On the safe domain neither operand of the division wraps. -/
theorem wrappingSelector_eq {P : Params} {clkInHz reqHz : Nat} (hw : 1 ≤ P.w) (h : SafeDomain P clkInHz reqHz) :
    wrappingSelector P clkInHz reqHz = selector P clkInHz reqHz := by
  obtain ⟨-, hB, hf⟩ := h
  have hnum : clkInHz <<< P.s < 2 ^ P.w := by
    rw [Nat.shiftLeft_eq]
    exact mul_two_pow_lt_of_lt hB
  have hden : 2 * reqHz < 2 ^ P.w := by
    rw [← Nat.sub_add_cancel hw, pow_succ]
    omega
  rw [wrappingSelector, selector, ratioQ, Nat.mod_eq_of_lt hnum, Nat.mod_eq_of_lt hden]

namespace Machine

/-! ### The operation -/

theorem exec_divsel_eq_next_iff {clkInHz reqHz : Nat} {s t : State} :
    exec (.divsel clkInHz reqHz) s = .next t ↔
      reqHz ≠ 0 ∧ t = s.setSel { clkInHz := clkInHz, reqHz := reqHz, sel := selector s.params clkInHz reqHz } := by
  refine ⟨execDivsel_next, fun ⟨hf, ht⟩ => ?_⟩
  rw [ht, exec, execDivsel, decide_eq_true hf, require_true]

/-- What a completed `DIVSEL` says of its request and its output port. -/
theorem exec_divsel_sel {clkInHz reqHz : Nat} {s t : State} (h : exec (.divsel clkInHz reqHz) s = .next t) :
    reqHz ≠ 0 ∧ t.sel.sel = selector s.params clkInHz reqHz := by
  obtain ⟨hf, rfl⟩ := exec_divsel_eq_next_iff.mp h
  exact ⟨hf, rfl⟩

theorem exec_divsel_zero (clkInHz : Nat) (s : State) : exec (.divsel clkInHz 0) s = .fault .zeroRequest := rfl

theorem runInstrs_params {is : List Instr} {s t : State} (h : runInstrs is s = .next t) : t.params = s.params := by
  induction is generalizing s with
  | nil =>
    cases h
    rfl
  | cons i is ih =>
    unfold runInstrs at h
    split at h
    next u hu => exact (ih h).trans (exec_params hu)
    next hn => exact absurd h (hn t)

/-! ### The statements -/

/-- Settles O16: the three clauses are the three cases of `k*`. -/
theorem divselReturnsTheSelector : Obligations.DivselReturnsTheSelector := by
  unfold Obligations.DivselReturnsTheSelector
  refine ⟨fun s clkInHz reqHz => ⟨fun hf => ⟨selector s.params clkInHz reqHz, exec_divsel_eq_next_iff.mpr ⟨hf, rfl⟩, ?_⟩, ?_⟩,
    fun s hmax => ?_⟩
  · rw [← State.params_s, ← ratioQ_eq]
    exact ⟨selector_eq_zero_of_ratioQ_le, fun j => selector_of_ratioQ_eq_two_pow,
      fun j hlo hhi => selector_of_ratioQ_between hlo hhi.le⟩
  · rintro rfl
    exact exec_divsel_zero clkInHz s
  · exact exec_divsel_eq_next_iff.mpr ⟨by omega, by rw [selector_48MHz_8MHz hmax, State.setSel]⟩

/-- Settles O17: the two sides of a floor division, divided by `2f·2^S`. -/
theorem fixedPointRatioTruncates : Obligations.FixedPointRatioTruncates := by
  unfold Obligations.FixedPointRatioTruncates
  intro P clkInHz reqHz hf
  have hreq : (0 : ℚ) < 2 * reqHz := by positivity
  have hlo : ratioQ P clkInHz reqHz * (2 * reqHz) ≤ clkInHz * 2 ^ P.s := by
    rw [ratioQ_eq]
    exact Nat.div_mul_le_self _ _
  have hhi : clkInHz * 2 ^ P.s < 2 * reqHz * (ratioQ P clkInHz reqHz + 1) := (ratioQ_le_iff P _ _ hf).mp le_rfl
  refine ⟨ratioQ_eq P clkInHz reqHz, ?_, ?_⟩
  · rw [exactRatio, div_le_div_iff₀ (by positivity) hreq]
    exact_mod_cast hlo
  · rw [exactRatio, div_lt_div_iff₀ hreq (by positivity), mul_comm _ (2 * (reqHz : ℚ))]
    exact_mod_cast hhi

/-- Settles O18: `Q ≤ 2^S` is `k* = 0`, and only a clamp at 0 hides another `k*`. -/
theorem selectorZeroThreshold : Obligations.SelectorZeroThreshold := by
  unfold Obligations.SelectorZeroThreshold
  refine ⟨fun s t clkInHz reqHz h => ?_, fun s t hmax h => ?_⟩
  · obtain ⟨hf, hsel⟩ := exec_divsel_sel h
    rw [hsel]
    refine ⟨ratioQ_le_iff s.params clkInHz _ hf, selector_eq_zero_of_ratioQ_le, fun hmax hzero => ?_⟩
    rw [selector_eq_min_kStar, State.params_maxDivider] at hzero
    exact (kStar_eq_zero_iff s.params clkInHz reqHz).mp (by omega)
  · rw [(exec_divsel_sel h).2, selector_48MHz_12MHz hmax]

/-- Settles O19: the clamp keeps the range, which is all `DIVFREQ` asks. -/
theorem divselResultIsInRange : Obligations.DivselResultIsInRange := by
  unfold Obligations.DivselResultIsInRange
  intro s t clkInHz reqHz h
  obtain ⟨-, rfl⟩ := exec_divsel_eq_next_iff.mp h
  have hle : selector s.params clkInHz reqHz ≤ s.maxDivider := selector_le s.params clkInHz reqHz
  exact ⟨hle, selector_fits s.params clkInHz reqHz, fun clkInHz' => ⟨_, exec_divfreq_eq_next clkInHz' hle⟩⟩

/-- Settles O20: both outputs are functions of the operands and the parameters, which no run changes. -/
theorem pureOperationsGiveTheSameResultAgain : Obligations.PureOperationsGiveTheSameResultAgain := by
  unfold Obligations.PureOperationsGiveTheSameResultAgain
  intro is s t hrun
  have hparams : t.params = s.params := runInstrs_params hrun
  refine ⟨fun clkInHz reqHz s' h => ?_, fun n clkInHz s' h => ?_⟩
  · obtain ⟨hf, rfl⟩ := exec_divsel_eq_next_iff.mp h
    exact ⟨exec_divsel_eq_next_iff.mpr ⟨hf, by rw [hparams]; rfl⟩, rfl⟩
  · obtain ⟨hn, rfl⟩ := exec_divfreq_eq_next_iff.mp h
    have hmax : t.maxDivider = s.maxDivider := congrArg Params.maxDivider hparams
    exact ⟨exec_divfreq_eq_next clkInHz (hn.trans_eq hmax.symm), rfl⟩

/-- Settles O21: the request is checked before a selector is evaluated. -/
theorem divselRefusesZeroRequest : Obligations.DivselRefusesZeroRequest := fun s clkInHz => exec_divsel_zero clkInHz s

/-- Settles O22: at `B = 0` the ratio is 0, below every threshold. -/
theorem zeroBusClockIsAccepted : Obligations.ZeroBusClockIsAccepted := by
  unfold Obligations.ZeroBusClockIsAccepted
  intro s reqHz hf
  have hq : ratioQ s.params 0 reqHz ≤ 2 ^ s.params.s := by simp [ratioQ_eq]
  refine ⟨_, _, exec_divsel_eq_next_iff.mpr ⟨hf, rfl⟩, selector_eq_zero_of_ratioQ_le hq,
    exec_divfreq_eq_next 0 (selector_le s.params 0 reqHz), ?_⟩
  rw [State.setFreq_freq, FreqPorts.of_outputHz_eq, outputHz, Nat.cast_zero, zero_div]

/-- Settles O23: `k*` is least by `kStar_le_iff`. -/
theorem selectorIsTheClampedLeastExponent : Obligations.SelectorIsTheClampedLeastExponent := by
  unfold Obligations.SelectorIsTheClampedLeastExponent
  intro s t clkInHz reqHz h
  rw [(exec_divsel_sel h).2]
  exact ⟨⟨(kStar_le_iff s.params clkInHz reqHz _).mp le_rfl, fun j => (lt_kStar_iff s.params clkInHz reqHz j).mp⟩,
    selector_eq_min_kStar s.params clkInHz reqHz, (kStar_eq_zero_iff s.params clkInHz reqHz).mpr,
    kStar_eq_ceil_logb (P := s.params)⟩

/-- Settles O24: at `n = k*` the output exceeds in the truncation window only (`exceeds_kStar_iff`), and `Q ≤ 2^(S+n)` is the
bound on it. -/
theorem overshootExactlyInTheTruncationWindow : Obligations.OvershootExactlyInTheTruncationWindow := by
  unfold Obligations.OvershootExactlyInTheTruncationWindow
  refine ⟨fun s t clkInHz reqHz n h hn hclamp => ?_, by decide⟩
  obtain ⟨hf, hsel⟩ := exec_divsel_sel h
  obtain rfl : n = kStar s.params clkInHz reqHz := hn.trans (hsel.trans (selector_of_not_clamped hclamp))
  have hq := (kStar_le_iff s.params clkInHz reqHz _).mp le_rfl
  have hwindow := exceeds_kStar_iff s.params clkInHz hf
  have hbound := (ratioQ_le_two_pow_iff s.params clkInHz _ hf).mp hq
  have hexact : ¬ Inexact s.params clkInHz reqHz → clkInHz ≤ reqHz * 2 ^ (kStar s.params clkInHz reqHz + 1) :=
    fun hrem => Nat.not_lt.mp fun hexc => hrem (hwindow.mp hexc).2
  refine ⟨hwindow, hbound, (ratioQ_le_two_pow_iff_outputHz s.params clkInHz _ hf).mp hq, ?_, hexact, fun hdvd => ?_⟩
  · rw [exceeds_iff_scaled s.shift, Nat.mul_comm 2 reqHz, ← Nat.mul_add]
    exact (and_iff_left hbound).symm
  · exact hexact (not_not.mpr (Nat.mod_eq_zero_of_dvd hdvd))

/-- Settles O25: below `k*` every output exceeds, above it none, and at `k*` the two unclamped cases differ. -/
theorem fastestNonExceedingChoice : Obligations.FastestNonExceedingChoice := by
  unfold Obligations.FastestNonExceedingChoice
  intro s t clkInHz reqHz n h hn
  obtain ⟨hf, hsel⟩ := exec_divsel_sel h
  rw [hn, hsel]
  refine ⟨fun hpos => ?_, fun hclamp => ?_, fun hclamp => ?_, fun hclamp => ?_⟩
  · have hfaster := exceeds_of_lt_selector hf (Nat.sub_lt hpos Nat.one_pos)
    rwa [Exceeds, Nat.sub_add_cancel hpos] at hfaster
  · rw [selector_of_not_clamped hclamp]
    exact not_exceeds_iff_kStar_le hf
  · rw [selector_of_not_clamped hclamp]
    exact not_exceeds_iff_kStar_lt hf
  · exact ⟨selector_of_clamped hclamp, fun m hm => exceeds_of_lt_kStar hf (hm.trans_lt hclamp)⟩

/-- Settles O26: the laws of the ratio, carried over by `selector_mono`. -/
theorem selectorIsMonotoneAndScaleFree : Obligations.SelectorIsMonotoneAndScaleFree := by
  unfold Obligations.SelectorIsMonotoneAndScaleFree
  intro s t u clkInHz reqHz h
  obtain ⟨hf, hsel⟩ := exec_divsel_sel h
  rw [hsel]
  refine ⟨fun clkInHz' hle hu => ?_, fun reqHz' hle hu => ?_, fun k hk hu => ?_⟩ <;> rw [(exec_divsel_sel hu).2]
  · exact selector_mono (ratioQ_mono_clkInHz s.params reqHz hle)
  · exact selector_mono (ratioQ_anti_reqHz s.params clkInHz hf hle)
  · rw [selector, selector, ratioQ_scale s.params clkInHz reqHz hk]

/-- Settles O27: a request at or above `B/2` is below the threshold, and the window is that of `k* = 0`. -/
theorem unreachablyFastRequestFallsShort : Obligations.UnreachablyFastRequestFallsShort := by
  unfold Obligations.UnreachablyFastRequestFallsShort
  intro s t clkInHz reqHz h
  obtain ⟨hf, hsel⟩ := exec_divsel_sel h
  rw [hsel]
  refine ⟨fun hfast => ⟨?_, ?_, ?_⟩, fun hq => ⟨?_, ?_⟩⟩
  · refine selector_eq_zero_of_ratioQ_le ((ratioQ_mono_clkInHz s.params reqHz hfast).trans_eq ?_)
    rw [← Nat.one_mul (2 * reqHz), ratioQ_multiple s.params 1 hf, Nat.one_mul]
  · rw [outputHz_le_natCast_iff]
    omega
  · rw [outputHz, zero_add, pow_one, div_eq_iff two_ne_zero, eq_comm, mul_comm]
    norm_cast
  · have hbound := (ratioQ_le_two_pow_iff_outputHz s.params clkInHz 0 hf).mp hq
    rw [outputHz, zero_add, pow_one, div_lt_iff₀ two_pos, add_zero, State.params_s] at hbound
    rw [selector_eq_zero_of_ratioQ_le hq, Exceeds, Nat.zero_add, pow_one, Nat.mul_comm reqHz]
    exact (and_iff_left (by linarith)).symm
  · exact not_exceeds_of_kStar_lt hf (((kStar_eq_zero_iff s.params clkInHz reqHz).mpr hq).trans_lt Nat.one_pos)

/-- Settles O28: the clamp bites where `MAX_DIVIDER < k*`, and there every selector in range exceeds. -/
theorem clampedRequestIsAlwaysExceeded : Obligations.ClampedRequestIsAlwaysExceeded := by
  unfold Obligations.ClampedRequestIsAlwaysExceeded
  refine ⟨fun s t clkInHz reqHz h => ?_, by decide, by decide, by decide, by norm_num [outputHz], by decide⟩
  obtain ⟨hf, hsel⟩ := exec_divsel_sel h
  have hclamped := lt_kStar_iff s.params clkInHz reqHz s.maxDivider
  refine ⟨hclamped, hclamped.trans ?_, fun hclamp => ⟨hsel.trans (selector_of_clamped hclamp), exceeds_of_lt_kStar hf hclamp⟩⟩
  rw [← Nat.not_le, ratioQ_le_iff s.params _ _ hf, Nat.not_lt]
  rfl

/-- Settles O29: the widths follow from the bound on the ratio; beyond the safe domain `B << S` wraps to 0, or `2f` to 2. -/
theorem wrappingArithmeticAgreesOnTheSafeDomain : Obligations.WrappingArithmeticAgreesOnTheSafeDomain := by
  unfold Obligations.WrappingArithmeticAgreesOnTheSafeDomain
  refine ⟨fun P clkInHz reqHz hw hB hf hf0 => ?_, fun P clkInHz reqHz => wrappingSelector_eq, by decide, by decide⟩
  have hq := ratioQ_lt_of_fits hw hB hf0
  refine ⟨?_, ?_, hq, fun hq0 => ?_, ?_⟩
  · rw [Nat.shiftLeft_eq, Fits, pow_add]
    exact Nat.mul_lt_mul_of_pos_right hB (by positivity)
  · rw [Fits, pow_succ']
    exact Nat.mul_lt_mul_of_pos_left hf Nat.two_pos
  · have hmsb := msb_lt_of_lt_two_pow hq0 hq
    omega
  · rw [unclampedSel_le_iff, ← Nat.add_sub_assoc hw, Nat.add_comm P.s]
    exact hq.le

end Machine
end Sys2Proof
end

section
/-! SUPPORT and PROOF of 42_divcfg.md rules R70 to R72. A completed `DIVCFG` caches its request and the selector it returns
(`exec_divcfg_recordOf`); where that selector comes from is said once for a hit (`exec_divcfg_hit`) and once for a miss
(`exec_divcfg_miss`). -/

namespace Sys2Proof.Machine

/-! ### The next state -/

theorem State.modifyBus_eq_set {b : Nat} {old : Bus} {s : State} (f : Bus → Bus) (hold : s.buses[b]? = some old) :
    s.modifyBus b f = { s with buses := s.buses.set b (f old) } := by
  rw [State.modifyBus, List.modify_eq_set_getElem?, hold]
  rfl

theorem State.modifyBus_eq_self {b : Nat} {old : Bus} {s : State} {f : Bus → Bus} (hold : s.buses[b]? = some old)
    (hf : f old = old) : s.modifyBus b f = s := by
  obtain ⟨hb, hget⟩ := List.getElem?_eq_some_iff.mp hold
  rw [State.modifyBus_eq_set f hold, hf, ← hget, List.set_getElem_self]

theorem Bus.lookup_hit (P : Params) (clkInHz : Nat) (bus : Bus) :
    bus.lookup P clkInHz bus.record.cachedClockHz = bus := by
  rw [Bus.lookup, BusRecord.lookup_hit]

theorem Bus.lookup_miss {P : Params} {clkInHz reqHz : Nat} {bus : Bus} (h : reqHz ≠ bus.record.cachedClockHz) :
    bus.lookup P clkInHz reqHz =
      { bus with record := { cachedClockHz := reqHz, cachedDivider := selector P clkInHz reqHz } } := by
  rw [Bus.lookup, BusRecord.lookup_miss h]

/-- A hit drives the ports and writes no record. -/
theorem divcfgState_hit {bus : Nat} {old : Bus} {s : State} (clkInHz : Nat) (hold : s.buses[bus]? = some old) :
    divcfgState bus clkInHz old.record.cachedClockHz old s = s.setCfg
      { clkEn := true, bus := bus, clkInHz := clkInHz, reqHz := old.record.cachedClockHz,
        sel := old.record.cachedDivider } := by
  rw [divcfgState, State.modifyBus_eq_self hold (Bus.lookup_hit s.params clkInHz old), BusRecord.lookup_hit]

/-- A miss writes both fields of the record. -/
theorem divcfgState_miss {bus reqHz : Nat} {old : Bus} {s : State} (clkInHz : Nat) (hold : s.buses[bus]? = some old)
    (hmiss : reqHz ≠ old.record.cachedClockHz) :
    divcfgState bus clkInHz reqHz old s = { s with
      buses := s.buses.set bus
        { old with record := { cachedClockHz := reqHz, cachedDivider := selector s.params clkInHz reqHz } }
      cfg := { clkEn := true, bus := bus, clkInHz := clkInHz, reqHz := reqHz, sel := selector s.params clkInHz reqHz } } := by
  rw [divcfgState, State.modifyBus_eq_set _ hold, Bus.lookup_miss hmiss, BusRecord.lookup_miss hmiss, State.setCfg]

/-! ### Faults on a configured bus -/

theorem execDivcfg_clockDomainOff {bus : Nat} {s : State} (clkInHz reqHz : Nat) (h : bus < s.nbus) :
    execDivcfg false bus clkInHz reqHz s = .fault (.clockDomainOff bus) := by
  have hsome : s.buses[bus]? = some s.buses[bus] := List.getElem?_eq_getElem h
  simp only [execDivcfg, hsome, require_false]

theorem execDivcfg_zeroRequest {bus : Nat} {s : State} (clkInHz : Nat) (h : bus < s.nbus) :
    execDivcfg true bus clkInHz 0 s = .fault .zeroRequest := by
  have hsome : s.buses[bus]? = some s.buses[bus] := List.getElem?_eq_getElem h
  simp [execDivcfg, hsome]

/-- Settles O30: completion is `execDivcfg_completes`, and its state is that of a miss or of a hit. -/
theorem divcfgLooksTheRequestUp : Obligations.DivcfgLooksTheRequestUp := by
  unfold Obligations.DivcfgLooksTheRequestUp
  intro s b clkInHz reqHz en
  refine ⟨fun old hold hreq hmiss => ?_, fun old hold hreq hhit => ?_, execDivcfg_outOfRange en clkInHz reqHz,
    execDivcfg_clockDomainOff clkInHz reqHz, execDivcfg_zeroRequest clkInHz,
    fun hreq => exec_divsel_eq_next_iff.mpr ⟨hreq, rfl⟩⟩
  · rw [← divcfgState_miss clkInHz hold hmiss]
    exact execDivcfg_completes clkInHz hold hreq
  · subst hhit
    exact (execDivcfg_completes clkInHz hold hreq).trans (congrArg _ (divcfgState_hit clkInHz hold))

/-! ### A completed `DIVCFG` -/

theorem BusRecord.lookup_eq (P : Params) (clkInHz reqHz : Nat) (r : BusRecord) : r.lookup P clkInHz reqHz =
    { cachedClockHz := reqHz, cachedDivider := (r.lookup P clkInHz reqHz).cachedDivider } :=
  congrArg (BusRecord.mk · _) (BusRecord.lookup_cachedClockHz P clkInHz reqHz r)

/-- The request and the returned selector are what the bus caches. -/
theorem exec_divcfg_recordOf {b clkInHz reqHz : Nat} {s t : State}
    (h : exec (.divcfg true b clkInHz reqHz) s = .next t) :
    t.recordOf b = some { cachedClockHz := reqHz, cachedDivider := t.cfg.sel } := by
  obtain ⟨old, hold, -, -, rfl⟩ := execDivcfg_next h
  rw [divcfgState_recordOf hold, if_pos rfl, BusRecord.lookup_eq, divcfgState, State.setCfg_cfg]

/-- On a hit the cached selector is returned, whatever the bus clock. -/
theorem exec_divcfg_hit {b clkInHz reqHz : Nat} {s t : State} {r : BusRecord} (hr : s.recordOf b = some r)
    (hhit : reqHz = r.cachedClockHz) (h : exec (.divcfg true b clkInHz reqHz) s = .next t) :
    t = s.setCfg { clkEn := true, bus := b, clkInHz := clkInHz, reqHz := reqHz, sel := r.cachedDivider } := by
  obtain ⟨old, hold, -, -, rfl⟩ := execDivcfg_next h
  obtain rfl : old.record = r := Option.some.inj ((State.recordOf_of_getElem? hold).symm.trans hr)
  subst hhit
  exact divcfgState_hit clkInHz hold

/-- On a miss the returned selector is computed at the bus clock given. -/
theorem exec_divcfg_miss {b clkInHz reqHz : Nat} {s t : State} {r : BusRecord} (hr : s.recordOf b = some r)
    (hmiss : reqHz ≠ r.cachedClockHz) (h : exec (.divcfg true b clkInHz reqHz) s = .next t) :
    t.cfg.sel = selector s.params clkInHz reqHz := by
  obtain ⟨old, hold, -, -, rfl⟩ := execDivcfg_next h
  obtain rfl : old.record = r := Option.some.inj ((State.recordOf_of_getElem? hold).symm.trans hr)
  rw [divcfgState_miss clkInHz hold hmiss]

/-- The record a miss leaves. -/
theorem exec_divcfg_miss_recordOf {b clkInHz reqHz : Nat} {s t : State} {r : BusRecord} (hr : s.recordOf b = some r)
    (hmiss : reqHz ≠ r.cachedClockHz) (h : exec (.divcfg true b clkInHz reqHz) s = .next t) :
    t.recordOf b = some { cachedClockHz := reqHz, cachedDivider := selector s.params clkInHz reqHz } := by
  rw [exec_divcfg_recordOf h, exec_divcfg_miss hr hmiss h]

/-- The same `DIVCFG` again hits its own record, and its ports already stand as it would drive them. -/
theorem exec_divcfg_again {b clkInHz reqHz : Nat} {s t : State} (h : exec (.divcfg true b clkInHz reqHz) s = .next t) :
    exec (.divcfg true b clkInHz reqHz) t = .next t := by
  have hr := exec_divcfg_recordOf h
  obtain ⟨_, -, -, hreq, ht⟩ := execDivcfg_next h
  obtain ⟨bus, hbus, -⟩ := Option.map_eq_some_iff.mp hr
  have hagain := execDivcfg_completes clkInHz hbus hreq
  have hports := exec_divcfg_hit hr rfl hagain
  rw [exec, hagain, hports, ht]
  rfl

/-- Where `B` is the clock of the last miss, it is so after one more `DIVCFG` at `B`, hit or miss. -/
theorem missClock_eq_of_eq {b clkInHz : Nat} {hz : Nat → Nat} (en : Bool) (reqHz : Nat) (s : State) (h : hz b = clkInHz) :
    missClock hz (.divcfg en b clkInHz reqHz) s b = clkInHz := by
  simp only [missClock, h, ite_self]

/-- On a cache valid at `B` (10_state.md rule R12), hit and miss return the same selector. -/
theorem exec_divcfg_of_cacheValid {b clkInHz reqHz : Nat} {s t : State} {hz : Nat → Nat} (hs : CacheValid hz s)
    (hb : hz b = clkInHz) (h : exec (.divcfg true b clkInHz reqHz) s = .next t) :
    t.cfg.sel = selector s.params clkInHz reqHz := by
  obtain ⟨-, -, -, hreq, -⟩ := execDivcfg_next h
  have hsel := exec_keeps_cacheValid hs h b _ (exec_divcfg_recordOf h) hreq
  rwa [exec_params h, missClock_eq_of_eq true reqHz s hb] at hsel

/-- Settles O32: the second `DIVCFG` hits the record the first one left. -/
theorem divcfgIsIdempotent : Obligations.DivcfgIsIdempotent := by
  unfold Obligations.DivcfgIsIdempotent
  intro s t b clkInHz reqHz r hr h
  refine ⟨exec_divcfg_recordOf h, exec_divcfg_again h, fun hhit => ?_, fun hmiss => exec_divcfg_miss hr hmiss h,
    fun hz hs hb => exec_divcfg_of_cacheValid hs hb h⟩
  rw [exec_divcfg_hit hr hhit h]
  exact ⟨rfl, rfl⟩

/-- Settles O33: a hit reads the record alone, and each completed `DIVCFG` decides whether the next one hits. -/
theorem cacheIsKeyedByTheRequestAlone : Obligations.CacheIsKeyedByTheRequestAlone := by
  unfold Obligations.CacheIsKeyedByTheRequestAlone
  refine ⟨fun s t u b clkInHz clkInHz' reqHz r hr hhit ht hu => ?_,
    fun s t u b clkInHz clkInHz' reqHz r hr hmiss ht hu => ?_,
    fun s t u v b hz₁ hz₂ hz₃ reqHz reqHz' hne ht hu hv => ?_⟩
  · rw [exec_divcfg_hit hr hhit ht, exec_divcfg_hit hr hhit hu]
    exact ⟨rfl, rfl⟩
  · have hsel := exec_divcfg_miss hr hmiss ht
    rw [exec_divcfg_hit (exec_divcfg_recordOf ht) rfl hu]
    exact ⟨hsel, rfl⟩
  · have hsecond := exec_divcfg_miss_recordOf (exec_divcfg_recordOf ht) hne.symm hu
    have hthird := exec_divcfg_miss_recordOf hsecond hne hv
    rw [exec_params ht] at hsecond
    rw [exec_params hu, exec_params ht] at hthird
    exact ⟨hsecond, hthird⟩

end Sys2Proof.Machine
end

section
/-! SUPPORT and PROOF of 60_exceptions.md rule R86. When each of the three operations faults, and on what, as an equivalence. -/

namespace Sys2Proof.Machine

theorem execDivcfg_eq_fault_iff {clkEn : Bool} {bus clkInHz reqHz : Nat} {s : State} {f : Fault} :
    execDivcfg clkEn bus clkInHz reqHz s = .fault f ↔
      (s.nbus ≤ bus ∧ f = .busIndex bus) ∨
      (bus < s.nbus ∧ clkEn = false ∧ f = .clockDomainOff bus) ∨
      (bus < s.nbus ∧ clkEn = true ∧ reqHz = 0 ∧ f = .zeroRequest) := by
  constructor
  · intro h
    obtain hbus | hbus := le_or_gt s.nbus bus
    · rw [execDivcfg_outOfRange clkEn clkInHz reqHz hbus] at h
      cases h
      exact .inl ⟨hbus, rfl⟩
    · cases clkEn with
      | false =>
        rw [execDivcfg_clockDomainOff clkInHz reqHz hbus] at h
        cases h
        exact .inr (.inl ⟨hbus, rfl, rfl⟩)
      | true =>
        by_cases hreq : reqHz = 0
        · subst hreq
          rw [execDivcfg_zeroRequest clkInHz hbus] at h
          cases h
          exact .inr (.inr ⟨hbus, rfl, rfl, rfl⟩)
        · rw [execDivcfg_completes clkInHz (List.getElem?_eq_getElem hbus) hreq] at h
          cases h
  · rintro (⟨hbus, rfl⟩ | ⟨hbus, rfl, rfl⟩ | ⟨hbus, rfl, rfl, rfl⟩)
    · exact execDivcfg_outOfRange clkEn clkInHz reqHz hbus
    · exact execDivcfg_clockDomainOff clkInHz reqHz hbus
    · exact execDivcfg_zeroRequest clkInHz hbus

theorem exec_divsel_eq_fault_iff {clkInHz reqHz : Nat} {s : State} {f : Fault} :
    exec (.divsel clkInHz reqHz) s = .fault f ↔ reqHz = 0 ∧ f = .zeroRequest := by
  constructor
  · intro h
    by_cases hreq : reqHz = 0
    · subst hreq
      rw [exec_divsel_zero] at h
      cases h
      exact ⟨rfl, rfl⟩
    · rw [exec_divsel_eq_next_iff.mpr ⟨hreq, rfl⟩] at h
      cases h
  · rintro ⟨rfl, rfl⟩
    exact exec_divsel_zero clkInHz s

theorem evalFreq_eq_fault_iff {n clkInHz : Nat} {s : State} {f : Fault} :
    evalFreq n clkInHz s = .fault f ↔ s.maxDivider < n ∧ f = .selectorRange n := by
  constructor
  · intro h
    rw [evalFreq_eq] at h
    split at h
    · cases h
    · next hn =>
      cases h
      exact ⟨Nat.not_le.mp hn, rfl⟩
  · rintro ⟨hn, rfl⟩
    exact evalFreq_outOfRange clkInHz hn

/-- Settles O31: `DIVCFG` by `execDivcfg_eq_fault_iff`; the other two operations have one fault each. -/
theorem divcfgFaultPriority : Obligations.DivcfgFaultPriority := by
  unfold Obligations.DivcfgFaultPriority
  intro s en b clkInHz reqHz f
  exact ⟨execDivcfg_eq_fault_iff, fun h => (exec_divsel_eq_fault_iff.mp h).2,
    fun _ h => (evalFreq_eq_fault_iff.mp h).2⟩

end Sys2Proof.Machine
end

section
/-! SUPPORT and PROOF of 30_encoding.md sections 2 and 3, and of the functions of 00_scope.md rule R6. A word of two fields is
taken apart by `slice_append` (a slice above the low field) and put together again by `slice_append_slice`; the two round
trips of the codec are these two facts field by field. -/

namespace Sys2Proof

/-! ### The functions of rule R6 -/

theorem msb_eq_iff {v k : Nat} (h : 1 ≤ v) : msb v = k ↔ 2 ^ k ≤ v ∧ v < 2 ^ (k + 1) :=
  Nat.log2_eq_iff (Nat.ne_zero_of_lt h)

theorem isPow2_iff_exists (v : Nat) : isPow2 v = true ↔ ∃ k, v = 2 ^ k := by
  constructor
  · intro h
    exact ⟨msb v, (isPow2_iff v).mp h⟩
  · rintro ⟨k, rfl⟩
    exact isPow2_two_pow k

theorem testBit_slice {hi lo : Nat} (v i : Nat) (h : lo ≤ hi) :
    (slice v hi lo).testBit i = (decide (lo + i ≤ hi) && v.testBit (lo + i)) := by
  have hbound : i < hi - lo + 1 ↔ lo + i ≤ hi := by omega
  rw [slice, Nat.testBit_mod_two_pow, Nat.testBit_div_two_pow, Nat.add_comm i lo, decide_eq_decide.mpr hbound]

/-- Settles O2: each is a fact about the library's `log2` and `testBit`. -/
theorem notationMeansWhatItSays : Obligations.NotationMeansWhatItSays := by
  unfold Obligations.NotationMeansWhatItSays
  exact ⟨fun _ _ => msb_eq_iff, isPow2_iff_exists, fun v _ _ i h => testBit_slice v i h⟩

/-- Settles O1: both ports have the width `portWidth`. -/
theorem portWidthsAreLeast : Obligations.PortWidthsAreLeast := by
  unfold Obligations.PortWidthsAreLeast
  intro P
  exact ⟨⟨P.selw_pos, lt_two_pow_portWidth _, fun _ => portWidth_le⟩,
    ⟨P.busw_pos, lt_two_pow_portWidth _, fun _ => portWidth_le⟩⟩

/-- Settles O3: the decoder evaluated on the eight words. -/
theorem publishedBundlesDecode : Obligations.PublishedBundlesDecode := by
  unfold Obligations.PublishedBundlesDecode
  decide

/-! ### Fields of a concatenation -/

/-- A slice above the low field does not see that field. -/
theorem slice_append {w a b hi lo hi' lo' : Nat} (hb : b < 2 ^ w) (hhi : hi' = hi + w) (hlo : lo' = lo + w) :
    slice (a * 2 ^ w + b) hi' lo' = slice a hi lo := by
  subst hhi hlo
  have hdiv : (a * 2 ^ w + b) / 2 ^ w = a := by
    rw [Nat.add_comm, Nat.add_mul_div_right _ _ (by positivity), Nat.div_eq_of_lt hb, Nat.zero_add]
  rw [slice, slice, Nat.add_comm lo, pow_add, ← Nat.div_div_eq_div_mul, hdiv, show hi + w - (w + lo) = hi - lo by omega]

theorem slice_of_lt {v hi : Nat} (h : v < 2 ^ (hi + 1)) : slice v hi 0 = v := by
  rw [slice, pow_zero, Nat.div_one, Nat.sub_zero, Nat.mod_eq_of_lt h]

/-- Two slices that meet are one slice. -/
theorem slice_append_slice {hi mid lo k : Nat} (v : Nat) (hk : 1 ≤ k) (hmid : mid = lo + k) (hhi : mid ≤ hi) :
    slice v hi mid * 2 ^ k + slice v (mid - 1) lo = slice v hi lo := by
  have hlow : mid - 1 - lo + 1 = k := by omega
  have hall : hi - lo + 1 = k + (hi - mid + 1) := by omega
  rw [slice, slice, slice, hlow, hall, hmid, pow_add 2 lo, ← Nat.div_div_eq_div_mul, ← hmid, pow_add 2 k, Nat.mod_mul,
    Nat.mul_comm (2 ^ k), Nat.add_comm]

theorem fits_slice {mid lo k : Nat} (v : Nat) (hk : 1 ≤ k) (hmid : mid = lo + k) : Fits k (slice v (mid - 1) lo) :=
  (slice_lt v (mid - 1) lo).trans_eq (by rw [show mid - 1 - lo + 1 = k by omega])

/-! ### Round trips -/

theorem decode_encode_divfreq {P : Params} {sel clkInHz : Nat} (hw : 1 ≤ P.w) (hsel : Fits P.selw sel)
    (hclk : Fits P.w clkInHz) : decode P (encode P (.divfreq sel clkInHz)) = .instr (.divfreq sel clkInHz) := by
  rw [encode, decode_fFreq (fits_append hsel hclk), slice_high hclk P.selw_pos hsel, slice_low hw hclk]

theorem decode_encode_divsel {P : Params} {clkInHz reqHz : Nat} (hw : 1 ≤ P.w) (hclk : Fits P.w clkInHz)
    (hreq : Fits P.w reqHz) : decode P (encode P (.divsel clkInHz reqHz)) = .instr (.divsel clkInHz reqHz) := by
  have hfits : Fits (2 * P.w) (clkInHz * 2 ^ P.w + reqHz) := Nat.two_mul P.w ▸ fits_append hclk hreq
  rw [encode, decode_fSel hfits, Nat.two_mul, slice_high hreq hw hclk, slice_low hw hreq]

/-- The enable is the bit above the other three fields. -/
theorem encode_divcfg_clkEn {P : Params} {bus clkInHz reqHz : Nat} (clkEn : Bool) (hbus : Fits P.busw bus)
    (hclk : Fits P.w clkInHz) (hreq : Fits P.w reqHz) :
    slice (encode P (.divcfg clkEn bus clkInHz reqHz)).bits (2 * P.w + P.busw) (2 * P.w + P.busw) = clkEn.toNat :=
  calc slice (encode P (.divcfg clkEn bus clkInHz reqHz)).bits (2 * P.w + P.busw) (2 * P.w + P.busw)
    _ = slice _ (P.busw + P.w) (P.busw + P.w) := slice_append hreq (by omega) (by omega)
    _ = slice _ (P.busw + 1 - 1) P.busw := slice_append hclk rfl rfl
    _ = clkEn.toNat := slice_high hbus le_rfl (Bool.toNat_lt clkEn)

theorem encode_divcfg_bus {P : Params} {bus clkInHz reqHz : Nat} (clkEn : Bool) (hbus : Fits P.busw bus)
    (hclk : Fits P.w clkInHz) (hreq : Fits P.w reqHz) :
    slice (encode P (.divcfg clkEn bus clkInHz reqHz)).bits (2 * P.w + P.busw - 1) (2 * P.w) = bus :=
  have hpos : 1 ≤ P.busw := P.busw_pos
  calc slice (encode P (.divcfg clkEn bus clkInHz reqHz)).bits (2 * P.w + P.busw - 1) (2 * P.w)
    _ = slice _ (P.busw - 1 + P.w) P.w := slice_append hreq (by omega) (by omega)
    _ = slice _ (P.busw - 1) 0 := slice_append hclk rfl (by omega)
    _ = bus := slice_low hpos hbus

theorem encode_divcfg_clkInHz {P : Params} {clkInHz reqHz : Nat} (clkEn : Bool) (bus : Nat) (hw : 1 ≤ P.w)
    (hclk : Fits P.w clkInHz) (hreq : Fits P.w reqHz) :
    slice (encode P (.divcfg clkEn bus clkInHz reqHz)).bits (2 * P.w - 1) P.w = clkInHz :=
  calc slice (encode P (.divcfg clkEn bus clkInHz reqHz)).bits (2 * P.w - 1) P.w
    _ = slice _ (P.w - 1) 0 := slice_append hreq (by omega) (by omega)
    _ = clkInHz := slice_low hw hclk

theorem decode_encode_divcfg {P : Params} {bus clkInHz reqHz : Nat} (clkEn : Bool) (hw : 1 ≤ P.w) (hbus : Fits P.busw bus)
    (hclk : Fits P.w clkInHz) (hreq : Fits P.w reqHz) :
    decode P (encode P (.divcfg clkEn bus clkInHz reqHz)) = .instr (.divcfg clkEn bus clkInHz reqHz) := by
  have hfits := Laws.EncodeFits.divcfg clkEn bus clkInHz reqHz P (by simp [Instr.wellFormed, hbus, hclk, hreq])
  have hreqField : slice (encode P (.divcfg clkEn bus clkInHz reqHz)).bits (P.w - 1) 0 = reqHz := slice_low hw hreq
  have henBit : (clkEn.toNat == 1) = clkEn := by cases clkEn <;> rfl
  refine (decode_fCfg hfits).trans ?_
  rw [encode_divcfg_clkEn clkEn hbus hclk hreq, encode_divcfg_bus clkEn hbus hclk hreq,
    encode_divcfg_clkInHz clkEn bus hw hclk hreq, hreqField, henBit]

/-- Settles O4: field by field for the three operations, row by row for the selector codes. -/
theorem decodeReadsBackEncode : Obligations.DecodeReadsBackEncode := by
  unfold Obligations.DecodeReadsBackEncode
  intro P i hP hwf
  obtain ⟨hw, -⟩ := hP
  cases i with
  | divfreq sel clkInHz =>
    simp only [Instr.wellFormed, Bool.and_eq_true, decide_eq_true_eq] at hwf
    obtain ⟨hsel, hclk⟩ := hwf
    exact decode_encode_divfreq hw hsel hclk
  | divsel clkInHz reqHz =>
    simp only [Instr.wellFormed, Bool.and_eq_true, decide_eq_true_eq] at hwf
    obtain ⟨hclk, hreq⟩ := hwf
    exact decode_encode_divsel hw hclk hreq
  | divcfg clkEn bus clkInHz reqHz =>
    simp only [Instr.wellFormed, Bool.and_eq_true, decide_eq_true_eq] at hwf
    obtain ⟨⟨hbus, hclk⟩, hreq⟩ := hwf
    exact decode_encode_divcfg clkEn hw hbus hclk hreq
  | sel0 | sel1 | sel2 | sel3 | sel4 | sel5 | sel6 | sel7 => exact decode_selCode (of_decide_eq_true hwf)

theorem encode_of_decode_fFreq {P : Params} {bits : Nat} {i : Instr} (hw : 1 ≤ P.w)
    (h : decode P ⟨.fFreq, bits⟩ = .instr i) : i.wellFormed P = true ∧ encode P i = ⟨.fFreq, bits⟩ := by
  have hk : 1 ≤ P.selw := P.selw_pos
  obtain ⟨hfits, hi⟩ := decode_instr h
  have hbits : bits < 2 ^ (P.w + P.selw - 1 + 1) := by rwa [Nat.sub_add_cancel (by omega), Nat.add_comm]
  cases hi
  constructor
  · simp only [Instr.wellFormed, Bool.and_eq_true, decide_eq_true_eq]
    exact ⟨fits_slice bits hk rfl, fits_slice bits hw (Nat.zero_add _).symm⟩
  · rw [encode, slice_append_slice bits hw (Nat.zero_add _).symm (by omega), slice_of_lt hbits]

theorem encode_of_decode_fSel {P : Params} {bits : Nat} {i : Instr} (hw : 1 ≤ P.w)
    (h : decode P ⟨.fSel, bits⟩ = .instr i) : i.wellFormed P = true ∧ encode P i = ⟨.fSel, bits⟩ := by
  obtain ⟨hfits, hi⟩ := decode_instr h
  have hbits : bits < 2 ^ (2 * P.w - 1 + 1) := by rwa [Nat.sub_add_cancel (by omega)]
  cases hi
  constructor
  · simp only [Instr.wellFormed, Bool.and_eq_true, decide_eq_true_eq]
    exact ⟨fits_slice bits hw (Nat.two_mul P.w), fits_slice bits hw (Nat.zero_add _).symm⟩
  · rw [encode, slice_append_slice bits hw (Nat.zero_add _).symm (by omega), slice_of_lt hbits]

/-- A bit written back as the number it was read from. -/
theorem toNat_beq_one {v : Nat} (h : v < 2) : (v == 1).toNat = v := by
  interval_cases v <;> rfl

theorem encode_of_decode_fCfg {P : Params} {bits : Nat} {i : Instr} (hw : 1 ≤ P.w)
    (h : decode P ⟨.fCfg, bits⟩ = .instr i) : i.wellFormed P = true ∧ encode P i = ⟨.fCfg, bits⟩ := by
  have hk : 1 ≤ P.busw := P.busw_pos
  obtain ⟨hfits, hi⟩ := decode_instr h
  have hbits : bits < 2 ^ (2 * P.w + P.busw + 1) := by
    rwa [show 2 * P.w + P.busw + 1 = 1 + P.busw + 2 * P.w by omega]
  have hen : slice bits (2 * P.w + P.busw) (2 * P.w + P.busw) < 2 := by
    simpa using slice_lt bits (2 * P.w + P.busw) (2 * P.w + P.busw)
  cases hi
  constructor
  · simp only [Instr.wellFormed, Bool.and_eq_true, decide_eq_true_eq]
    exact ⟨⟨fits_slice bits hk rfl, fits_slice bits hw (Nat.two_mul P.w)⟩, fits_slice bits hw (Nat.zero_add _).symm⟩
  · rw [encode, toNat_beq_one hen, slice_append_slice bits hk rfl le_rfl,
      slice_append_slice bits hw (Nat.two_mul P.w) (by omega), slice_append_slice bits hw (Nat.zero_add _).symm (by omega),
      slice_of_lt hbits]

/-- A row of the table is the code it is read from, and needs a port as wide as the code. -/
theorem encode_of_decodeSelCode {P : Params} {code : Nat} {i : Instr} (h : decodeSelCode code = .instr i) :
    i.wellFormed P = decide (Fits P.selw code) ∧ encode P i = ⟨.selCode, code⟩ := by
  unfold decodeSelCode at h
  split at h <;> cases h <;> exact ⟨rfl, rfl⟩

/-- Settles O5: format by format, since the ports driven say which operation is read. -/
theorem encodeReadsBackDecode : Obligations.EncodeReadsBackDecode := by
  unfold Obligations.EncodeReadsBackDecode
  intro P b i hP h
  obtain ⟨hw, -⟩ := hP
  obtain ⟨fmt, bits⟩ := b
  cases fmt with
  | fFreq => exact encode_of_decode_fFreq hw h
  | fSel => exact encode_of_decode_fSel hw h
  | fCfg => exact encode_of_decode_fCfg hw h
  | selCode =>
    obtain ⟨hfits, hrow⟩ := decode_instr h
    obtain ⟨hwf, henc⟩ := encode_of_decodeSelCode (P := P) hrow
    exact ⟨hwf.trans (decide_eq_true hfits), henc⟩
  | other n => cases h

/-! ### The domain of the decoder -/

theorem Bundle.wellFormed_iff (P : Params) (b : Bundle) :
    b.wellFormed P = true ↔ Fits (b.format.width P) b.bits ∧ ∀ n, b.format ≠ .other n := by
  obtain ⟨fmt, bits⟩ := b
  cases fmt <;> simp [Bundle.wellFormed]

theorem Bundle.wellFormed_of_decode {P : Params} {b : Bundle} {i : Instr} (h : decode P b = .instr i) :
    b.wellFormed P = true := by
  refine (Bundle.wellFormed_iff P b).mpr ⟨(decode_instr h).1, fun n hn => ?_⟩
  rw [decode, hn] at h
  cases h

theorem decodeSelCode_error {code : Nat} {e : DecodeError} (h : decodeSelCode code = .error e) : e = .noRow code := by
  unfold decodeSelCode at h
  split at h <;> cases h
  rfl

/-- On the ports every code has a meaning: its row, or `DIVFREQ` on the present clock (log 5). -/
theorem decodeOnPorts_selCode {P : Params} {code : Nat} (clkInHz : Nat) (h : Fits P.selw code) :
    ∃ i, decodeOnPorts P clkInHz ⟨.selCode, code⟩ = .instr i := by
  have hdec : decode P ⟨.selCode, code⟩ = decodeSelCode code := decode_selCode h
  cases hrow : decodeSelCode code with
  | instr i => exact ⟨i, decodeOnPorts_of_decode (hdec.trans hrow)⟩
  | error e =>
    obtain rfl := decodeSelCode_error hrow
    exact ⟨.divfreq code clkInHz, by simp only [decodeOnPorts, hdec, hrow]⟩

/-- Settles O6: the ports add a meaning to the codes without a row, and every other bundle that fits has one. -/
theorem everyFittingBundleIsAnInstruction : Obligations.EveryFittingBundleIsAnInstruction := by
  unfold Obligations.EveryFittingBundleIsAnInstruction
  intro P clkInHz b
  constructor
  · rintro ⟨i, h⟩
    obtain hdec | ⟨n, rfl, hfits, -⟩ := decodeOnPorts_instr h
    · exact Bundle.wellFormed_of_decode hdec
    · exact (Bundle.wellFormed_iff P _).mpr ⟨hfits, by simp⟩
  · intro h
    obtain ⟨hfits, hport⟩ := (Bundle.wellFormed_iff P b).mp h
    obtain ⟨fmt, bits⟩ := b
    cases fmt with
    | fFreq => exact ⟨_, decodeOnPorts_of_decode (decode_fFreq hfits)⟩
    | fSel => exact ⟨_, decodeOnPorts_of_decode (decode_fSel hfits)⟩
    | fCfg => exact ⟨_, decodeOnPorts_of_decode (decode_fCfg hfits)⟩
    | selCode => exact decodeOnPorts_selCode clkInHz hfits
    | other n => exact absurd rfl (hport n)

end Sys2Proof
end

section
/-! SUPPORT and PROOF of the invariant of the machine (10_state.md section 2). Each part of `State.Inv` is kept by the updates
that touch it (`RecordOk.lookup`, `BusOk.lookup` and the three changes of a bus by the surroundings), each update of the state keeps
the whole (`State.Inv.setFreq` to `State.Inv.divcfgState`), and an operation or step is one or two such updates with operands that
fit (`wellFormed_of_decodeOnPorts`). -/

namespace Sys2Proof.Machine

/-! ### Parts of the invariant -/

/-- A hit keeps the record, a miss writes the selector of a clock that fits. -/
theorem RecordOk.lookup {P : Params} {clkInHz reqHz : Nat} {r : BusRecord} (hr : RecordOk P r) (hclk : Fits P.w clkInHz)
    (hreq : Fits P.w reqHz) : RecordOk P (r.lookup P clkInHz reqHz) := by
  by_cases hhit : reqHz = r.cachedClockHz
  · subst hhit
    rwa [BusRecord.lookup_hit]
  · rw [BusRecord.lookup_miss hhit]
    exact ⟨hreq, selector_fits P clkInHz reqHz, fun _ => ⟨clkInHz, hclk, rfl⟩⟩

theorem BusOk.lookup {P : Params} {clkInHz reqHz : Nat} {bus : Bus} (hb : BusOk P bus) (hclk : Fits P.w clkInHz)
    (hreq : Fits P.w reqHz) : BusOk P (bus.lookup P clkInHz reqHz) :=
  ⟨hb.record.lookup hclk hreq, hb.programmed, hb.clockFits⟩

theorem BusOk.program {P : Params} {n : Nat} {bus : Bus} (hb : BusOk P bus) (hn : n ≤ P.maxDivider) :
    BusOk P (bus.program n) :=
  ⟨hb.record, hn, hb.clockFits⟩

theorem BusOk.release {P : Params} {bus : Bus} (hb : BusOk P bus) : BusOk P (bus.release P) :=
  ⟨hb.record, neutralSel_le P, hb.clockFits⟩

theorem BusOk.report {P : Params} {hz : Nat} {bus : Bus} (hb : BusOk P bus) (hhz : Fits P.w hz) : BusOk P (bus.report hz) :=
  ⟨hb.record, hb.programmed, hhz⟩

theorem FreqOk.of {P : Params} {n clkInHz : Nat} (hn : n ≤ P.maxDivider) (hclk : Fits P.w clkInHz) :
    FreqOk P (FreqPorts.of n clkInHz) :=
  ⟨hn, hclk, rfl⟩

theorem SelOk.of_selector {P : Params} {clkInHz reqHz : Nat} (hclk : Fits P.w clkInHz) (hreq : Fits P.w reqHz) :
    SelOk P { clkInHz := clkInHz, reqHz := reqHz, sel := selector P clkInHz reqHz } :=
  ⟨hclk, hreq, fun _ => rfl⟩

/-! ### Updates of the state -/

theorem State.Inv.setPending {s : State} (hs : s.Inv) (ls : List Line) : (s.setPending ls).Inv :=
  ⟨hs.params, hs.buses, hs.freq, hs.sel, hs.cfg⟩

theorem State.Inv.setFreq {s : State} {p : FreqPorts} (hs : s.Inv) (hp : FreqOk s.params p) : (s.setFreq p).Inv :=
  ⟨hs.params, hs.buses, hp, hs.sel, hs.cfg⟩

theorem State.Inv.setSel {s : State} {p : SelPorts} (hs : s.Inv) (hp : SelOk s.params p) : (s.setSel p).Inv :=
  ⟨hs.params, hs.buses, hs.freq, hp, hs.cfg⟩

/-- The invariant of a state, stated under the parameters of the state it came from. -/
theorem State.Inv.of_params_eq {s t : State} (hp : t.params = s.params) (hvalid : s.params.Valid)
    (hbuses : ∀ bus ∈ t.buses, BusOk s.params bus) (hfreq : FreqOk s.params t.freq) (hsel : SelOk s.params t.sel)
    (hcfg : CfgOk t) : t.Inv := by
  rw [← hp] at hvalid hbuses hfreq hsel
  exact ⟨hvalid, hbuses, hfreq, hsel, hcfg⟩

theorem busOk_of_mem_modifyBus {s : State} {b : Nat} {f : Bus → Bus} {bus : Bus} (hs : s.Inv)
    (hf : ∀ old, BusOk s.params old → BusOk s.params (f old)) (hbus : bus ∈ (s.modifyBus b f).buses) :
    BusOk s.params bus := by
  obtain hmem | ⟨old, hold, rfl⟩ := State.mem_modifyBus hbus
  · exact hs.buses bus hmem
  · exact hf old (hs.buses old (List.mem_of_getElem? hold))

/-- The surroundings of a bus may change where its record does not. -/
theorem State.Inv.modifyBus {s : State} {b : Nat} {f : Bus → Bus} (hs : s.Inv) (hrecord : ∀ bus, (f bus).record = bus.record)
    (hf : ∀ bus, BusOk s.params bus → BusOk s.params (f bus)) : (s.modifyBus b f).Inv := by
  refine .of_params_eq (State.modifyBus_params b f s) hs.params (fun bus => busOk_of_mem_modifyBus hs hf) hs.freq hs.sel
    fun hreq => ?_
  rw [State.modifyBus_recordOf_of_keeps _ _ _ _ hrecord]
  exact hs.cfg hreq

theorem State.Inv.divcfgState {s : State} {bus clkInHz reqHz : Nat} {old : Bus} (hs : s.Inv) (hold : s.buses[bus]? = some old)
    (hclk : Fits s.width clkInHz) (hreq : Fits s.width reqHz) : (divcfgState bus clkInHz reqHz old s).Inv :=
  .of_params_eq (divcfgState_params bus clkInHz reqHz old s) hs.params
    (fun _ => busOk_of_mem_modifyBus hs fun _ hb => hb.lookup hclk hreq) hs.freq hs.sel
    fun hne => exec_divcfg_recordOf (execDivcfg_completes clkInHz hold hne)

/-! ### Operations and steps -/

theorem exec_keeps_inv {i : Instr} {s t : State} (hs : s.Inv) (hi : i.wellFormed s.params = true) (h : exec i s = .next t) :
    t.Inv := by
  obtain ⟨n, clkInHz, hn, hclk, rfl, -⟩ | ⟨clkInHz, reqHz, rfl, -, rfl⟩ | ⟨bus, clkInHz, reqHz, old, rfl, hold, -, rfl⟩ :=
    exec_next h
  · have hfits : Fits s.width clkInHz := by
      obtain rfl | rfl := hclk
      · simp only [Instr.wellFormed, Bool.and_eq_true, decide_eq_true_eq] at hi
        exact hi.2
      · exact hs.freq.clockFits
    exact hs.setFreq (.of hn hfits)
  · simp only [Instr.wellFormed, Bool.and_eq_true, decide_eq_true_eq] at hi
    obtain ⟨hclk, hreq⟩ := hi
    exact hs.setSel (.of_selector hclk hreq)
  · simp only [Instr.wellFormed, Bool.and_eq_true, decide_eq_true_eq] at hi
    obtain ⟨⟨-, hclk⟩, hreq⟩ := hi
    exact hs.divcfgState hold hclk hreq

/-- What a bundle on the ports is read as fits the ports, if the clock already there does. -/
theorem wellFormed_of_decodeOnPorts {P : Params} {clkInHz : Nat} {b : Bundle} {i : Instr} (hP : P.Valid)
    (hclk : Fits P.w clkInHz) (h : decodeOnPorts P clkInHz b = .instr i) : i.wellFormed P = true := by
  obtain hdec | ⟨n, -, hn, rfl⟩ := decodeOnPorts_instr h
  · exact (encodeReadsBackDecode P b i hP hdec).1
  · simp only [Instr.wellFormed, Bool.and_eq_true, decide_eq_true_eq]
    exact ⟨hn, hclk⟩

theorem runDivact_keeps_inv {clkInHz reqHz : Nat} {s t : State} (hs : s.Inv) (hclk : Fits s.width clkInHz)
    (hreq : Fits s.width reqHz) (h : runDivact clkInHz reqHz s = .next t) : t.Inv := by
  obtain ⟨u, hsel, hfreq⟩ := runDivact_next h
  obtain ⟨-, rfl⟩ := execDivsel_next hsel
  obtain ⟨hn, rfl⟩ := evalFreq_next hfreq
  exact (hs.setSel (.of_selector hclk hreq)).setFreq (.of hn hclk)

theorem runAcquire_keeps_inv {bus reqHz : Nat} {s t : State} (hs : s.Inv) (hreq : Fits s.width reqHz)
    (h : runAcquire bus reqHz s = .next t) : t.Inv := by
  obtain ⟨old, u, hold, -, hcfg, rfl⟩ := runAcquire_next h
  have hbus := hs.buses old (List.mem_of_getElem? hold)
  have hsel := execDivcfg_sel_le hs hcfg
  obtain ⟨old', hold', -, -, rfl⟩ := execDivcfg_next hcfg
  exact (hs.divcfgState hold' hbus.clockFits hreq).modifyBus (Bus.program_record _) fun _ hb => hb.program hsel

theorem runRelease_keeps_inv {bus : Nat} {s t : State} (hs : s.Inv) (h : runRelease bus s = .next t) : t.Inv := by
  obtain ⟨-, -, rfl⟩ := runRelease_next h
  exact hs.modifyBus (Bus.release_record _) fun _ hb => hb.release

theorem runBusClock_keeps_inv {bus hz : Nat} {s t : State} (hs : s.Inv) (hhz : Fits s.width hz)
    (h : runBusClock bus hz s = .next t) : t.Inv := by
  obtain ⟨-, -, rfl⟩ := runBusClock_next h
  exact hs.modifyBus (Bus.report_record hz) fun _ hb => hb.report hhz

/-- Settles O46: every line is one operation or call, whose operands fit. -/
theorem stepKeepsTheMachineInvariant : Obligations.StepKeepsTheMachineInvariant := by
  unfold Obligations.StepKeepsTheMachineInvariant
  intro s t hs h
  obtain ⟨-, rfl⟩ | ⟨l, rest, -, ⟨b, i, rfl, hdec, hexec⟩ | ⟨hwf, hcall⟩⟩ := step_next h
  · exact hs
  · exact exec_keeps_inv (hs.setPending rest) (wellFormed_of_decodeOnPorts hs.params hs.freq.clockFits hdec) hexec
  · have hrest := hs.setPending rest
    obtain ⟨clkInHz, reqHz, rfl, hrun⟩ | ⟨bus, reqHz, rfl, hrun⟩ | ⟨bus, rfl, hrun⟩ | ⟨bus, hz, rfl, hrun⟩ := hcall
    · simp only [Line.wellFormed, Bool.and_eq_true, decide_eq_true_eq] at hwf
      obtain ⟨hclk, hreq⟩ := hwf
      exact runDivact_keeps_inv hrest hclk hreq hrun
    · exact runAcquire_keeps_inv hrest (of_decide_eq_true hwf) hrun
    · exact runRelease_keeps_inv hrest hrun
    · exact runBusClock_keeps_inv hrest (of_decide_eq_true hwf) hrun

/-! ### Reset and the parameters -/

theorem resetFor_params (P : Params) : (State.resetFor P).params = P := by
  simp [State.params, State.resetFor]

theorem eq_reset_of_mem_resetFor {P : Params} {bus : Bus} (h : bus ∈ (State.resetFor P).buses) : bus = Bus.reset :=
  List.eq_of_mem_replicate h

/-- Settles O48: every bus is `Bus.reset`. -/
theorem resetLeavesEveryRecordUnset : Obligations.ResetLeavesEveryRecordUnset := by
  unfold Obligations.ResetLeavesEveryRecordUnset
  refine ⟨fun P => ⟨resetFor_params P, List.length_replicate, fun bus hbus => ?_⟩, rfl⟩
  obtain rfl := eq_reset_of_mem_resetFor hbus
  exact ⟨rfl, rfl, rfl⟩

theorem reset_busOk (P : Params) : BusOk P Bus.reset where
  record := ⟨Nat.two_pow_pos _, Nat.two_pow_pos _, fun hset => absurd rfl hset⟩
  programmed := Nat.zero_le _
  clockFits := Nat.two_pow_pos _

theorem resetFor_freq (P : Params) : (State.resetFor P).freq = FreqPorts.of 0 0 := by
  rw [FreqPorts.of_eq]
  rfl

/-- Settles O47: everything is 0, and the ports of `DIVFREQ` are what it gives for 0 and 0. -/
theorem resetMeetsTheMachineInvariant : Obligations.ResetMeetsTheMachineInvariant := by
  unfold Obligations.ResetMeetsTheMachineInvariant
  intro P hP
  refine ⟨?_, fun bus hbus => ?_, ?_, ⟨Nat.two_pow_pos _, Nat.two_pow_pos _, fun hreq => absurd rfl hreq⟩,
    fun hreq => absurd rfl hreq⟩
  · rwa [resetFor_params]
  · obtain rfl := eq_reset_of_mem_resetFor hbus
    exact reset_busOk _
  · rw [resetFor_freq]
    exact .of (Nat.zero_le _) (Nat.two_pow_pos _)

theorem step_params {s t : State} (h : step s = .next t) : t.params = s.params := by
  obtain ⟨hkept, -⟩ | ⟨_, _, _, -, hlook⟩ := step_records h
  · exact hkept.params
  · exact hlook.params

/-- Settles O49: neither effect of a step on the records changes the parameters. -/
theorem stepKeepsTheParameters : Obligations.StepKeepsTheParameters := fun _ _ h => step_params h

end Sys2Proof.Machine
end

section
/-! SUPPORT and PROOF of the selector codes (30_encoding.md section 1), the complete set of faults (60_exceptions.md section 1), the
frames (10_state.md) and the order of operations (20_memory.md section 3). The eleven instructions are the three operations and
the rows of `selCodeRows`, which all do the same thing (`exec_selCode`); what is said of every instruction is said of these four. -/

namespace Sys2Proof.Machine

/-! ### The selector codes -/

/-- The rows `SEL.0` to `SEL.7` with their codes (30_encoding.md rule R30). -/
def selCodeRows : List (Instr × Nat) :=
  [(.sel0, 0), (.sel1, 1), (.sel2, 2), (.sel3, 3), (.sel4, 4), (.sel5, 5), (.sel6, 6), (.sel7, 7)]

/-- An operation or a selector code. -/
theorem instr_cases (i : Instr) :
    (∃ n clkInHz, i = .divfreq n clkInHz) ∨ (∃ clkInHz reqHz, i = .divsel clkInHz reqHz) ∨
      (∃ en bus clkInHz reqHz, i = .divcfg en bus clkInHz reqHz) ∨ ∃ n, (i, n) ∈ selCodeRows := by
  cases i with
  | divfreq n clkInHz => exact .inl ⟨n, clkInHz, rfl⟩
  | divsel clkInHz reqHz => exact .inr (.inl ⟨clkInHz, reqHz, rfl⟩)
  | divcfg en bus clkInHz reqHz => exact .inr (.inr (.inl ⟨en, bus, clkInHz, reqHz, rfl⟩))
  | sel0 | sel1 | sel2 | sel3 | sel4 | sel5 | sel6 | sel7 => exact .inr (.inr (.inr (by simp [selCodeRows])))

theorem exec_selCode {i : Instr} {n : Nat} (h : (i, n) ∈ selCodeRows) (s : State) : exec i s = driveSelCode n s := by
  simp only [selCodeRows, List.mem_cons, Prod.mk.injEq, List.not_mem_nil, or_false] at h
  obtain ⟨rfl, rfl⟩ | ⟨rfl, rfl⟩ | ⟨rfl, rfl⟩ | ⟨rfl, rfl⟩ | ⟨rfl, rfl⟩ | ⟨rfl, rfl⟩ | ⟨rfl, rfl⟩ | ⟨rfl, rfl⟩ := h <;> rfl

/-- Settles O10: a code is `evalFreq` at the clock on the port. -/
theorem selectorCodesDriveTheDivider : Obligations.SelectorCodesDriveTheDivider := by
  unfold Obligations.SelectorCodesDriveTheDivider
  intro s row hrow
  rw [exec_selCode (i := row.1) (n := row.2) hrow s]
  refine ⟨fun hn => ?_, evalFreq_outOfRange s.freq.clkInHz⟩
  rw [driveSelCode, evalFreq_eq, if_pos hn, FreqPorts.of_eq, State.setFreq]

/-- A power of two just above `MAX_DIVIDER` leaves no code of the port over. -/
theorem le_maxDivider_of_fits_selw {P : Params} {n k : Nat} (hk : 1 ≤ k) (hpow : P.maxDivider + 1 = 2 ^ k)
    (hn : Fits P.selw n) : n ≤ P.maxDivider := by
  have hwidth : P.selw ≤ k := portWidth_le hk (by omega)
  have hlt : n < 2 ^ k := lt_of_lt_of_le hn (Nat.pow_le_pow_right Nat.two_pos hwidth)
  omega

/-- Settles O13: the codes of the port are in range where `MAX_DIVIDER + 1` is `2^k` with `k ≥ 1`; `k = 0` is `MAX_DIVIDER = 0`. -/
theorem selectorOutOfRangeRaises : Obligations.SelectorOutOfRangeRaises := by
  unfold Obligations.SelectorOutOfRangeRaises
  intro s n clkInHz hn
  refine ⟨evalFreq_outOfRange clkInHz hn, fun hwf => or_iff_not_imp_left.mpr fun hmax k hpow => ?_⟩
  simp only [Instr.wellFormed, Bool.and_eq_true, decide_eq_true_eq] at hwf
  have hk : 1 ≤ k := Nat.one_le_iff_ne_zero.mpr fun hzero => hmax (by simpa [hzero] using hpow)
  exact absurd (le_maxDivider_of_fits_selw hk (P := s.params) hpow hwf.1) (Nat.not_le.mpr hn)

/-! ### The complete set of faults -/

theorem exec_selCode_eq_fault_iff {i : Instr} {n : Nat} {s : State} {f : Fault} (h : (i, n) ∈ selCodeRows) :
    exec i s = .fault f ↔ s.maxDivider < n ∧ f = .selectorRange n := by
  rw [exec_selCode h]
  exact evalFreq_eq_fault_iff

theorem require_ne_refused {c : Bool} {f : Fault} {k : Result} {r : Refusal} (hk : k ≠ .refused r) :
    require c f k ≠ .refused r := by
  cases c with
  | false => nofun
  | true => exact hk

theorem evalFreq_ne_refused (n clkInHz : Nat) (s : State) (r : Refusal) : evalFreq n clkInHz s ≠ .refused r :=
  require_ne_refused nofun

theorem execDivcfg_ne_refused (clkEn : Bool) (bus clkInHz reqHz : Nat) (s : State) (r : Refusal) :
    execDivcfg clkEn bus clkInHz reqHz s ≠ .refused r := by
  unfold execDivcfg
  split
  · nofun
  · exact require_ne_refused (require_ne_refused nofun)

theorem exec_ne_refused (i : Instr) (s : State) (r : Refusal) : exec i s ≠ .refused r := by
  obtain ⟨n, clkInHz, rfl⟩ | ⟨clkInHz, reqHz, rfl⟩ | ⟨en, bus, clkInHz, reqHz, rfl⟩ | ⟨n, hrow⟩ := instr_cases i
  · exact evalFreq_ne_refused n clkInHz s r
  · exact require_ne_refused nofun
  · exact execDivcfg_ne_refused en bus clkInHz reqHz s r
  · rw [exec_selCode hrow]
    exact evalFreq_ne_refused n s.freq.clkInHz s r

/-- Settles O37: the faults of the three operations, and those of the codes as of `DIVFREQ`. -/
theorem completeFaultSet : Obligations.CompleteFaultSet := by
  unfold Obligations.CompleteFaultSet
  refine fun i s => ⟨fun f => ⟨fun h => ?_, ?_⟩, exec_ne_refused i s⟩
  · obtain ⟨n, clkInHz, rfl⟩ | ⟨clkInHz, reqHz, rfl⟩ | ⟨en, bus, clkInHz, reqHz, rfl⟩ | ⟨n, hrow⟩ := instr_cases i
    · exact .inr (.inr (.inr (.inr ⟨n, .inl ⟨clkInHz, rfl⟩, evalFreq_eq_fault_iff.mp h⟩)))
    · obtain ⟨rfl, rfl⟩ := exec_divsel_eq_fault_iff.mp h
      exact .inr (.inr (.inl ⟨clkInHz, rfl, rfl⟩))
    · obtain ⟨hbus, rfl⟩ | ⟨hbus, rfl, rfl⟩ | ⟨hbus, rfl, rfl, rfl⟩ := execDivcfg_eq_fault_iff.mp h
      · exact .inl ⟨en, bus, clkInHz, reqHz, rfl, hbus, rfl⟩
      · exact .inr (.inl ⟨bus, clkInHz, reqHz, rfl, hbus, rfl⟩)
      · exact .inr (.inr (.inr (.inl ⟨bus, clkInHz, rfl, hbus, rfl⟩)))
    · exact .inr (.inr (.inr (.inr ⟨n, .inr hrow, (exec_selCode_eq_fault_iff hrow).mp h⟩)))
  · rintro (⟨en, b, hz, req, rfl, hb, rfl⟩ | ⟨b, hz, req, rfl, hb, rfl⟩ | ⟨hz, rfl, rfl⟩ | ⟨b, hz, rfl, hb, rfl⟩ |
      ⟨n, ⟨hz, rfl⟩ | hrow, hn, rfl⟩)
    · exact execDivcfg_outOfRange en hz req hb
    · exact execDivcfg_clockDomainOff hz req hb
    · exact exec_divsel_zero hz s
    · exact execDivcfg_zeroRequest hz hb
    · exact evalFreq_outOfRange hz hn
    · exact (exec_selCode_eq_fault_iff hrow).mpr ⟨hn, rfl⟩

/-! ### Frames -/

/-- An operation on `DIVFREQ`'s ports writes those ports alone, and of the ports it reads those alone. -/
theorem exec_fFreq_eq_next_iff {i : Instr} (h : portsDriven i = .fFreq) : ∃ (n : Nat) (clk : FreqPorts → Nat), ∀ s t,
    exec i s = .next t ↔ n ≤ s.maxDivider ∧ t = s.setFreq (FreqPorts.of n (clk s.freq)) := by
  obtain ⟨n, clkInHz, rfl⟩ | ⟨_, _, rfl⟩ | ⟨_, _, _, _, rfl⟩ | ⟨n, hrow⟩ := instr_cases i
  · exact ⟨n, fun _ => clkInHz, fun _ _ => exec_divfreq_eq_next_iff⟩
  · cases h
  · cases h
  · refine ⟨n, FreqPorts.clkInHz, fun s t => ?_⟩
    rw [exec_selCode hrow]
    exact exec_divfreq_eq_next_iff

theorem exec_divcfg_eq_next_iff {en : Bool} {b clkInHz reqHz : Nat} {s t : State} :
    exec (.divcfg en b clkInHz reqHz) s = .next t ↔
      en = true ∧ reqHz ≠ 0 ∧ ∃ old, s.buses[b]? = some old ∧ t = divcfgState b clkInHz reqHz old s := by
  constructor
  · intro h
    obtain ⟨old, hold, hen, hreq, ht⟩ := execDivcfg_next h
    exact ⟨hen, hreq, old, hold, ht⟩
  · rintro ⟨rfl, hreq, old, hold, rfl⟩
    exact execDivcfg_completes clkInHz hold hreq

theorem exec_pending {i : Instr} {s t : State} (h : exec i s = .next t) : t.pending = s.pending := by
  obtain ⟨_, _, _, _, rfl, _⟩ | ⟨_, _, _, _, rfl⟩ | ⟨_, _, _, _, _, _, _, rfl⟩ := exec_next h <;> rfl

/-- Settles O38: each operation is one write of its ports, and `DIVCFG` one lookup besides. -/
theorem instructionFrames : Obligations.InstructionFrames := by
  unfold Obligations.InstructionFrames
  intro i s t h
  have hparams : t.params = s.params := exec_params h
  refine ⟨congrArg Params.w hparams, congrArg Params.s hparams, congrArg Params.maxDivider hparams,
    congrArg Params.nbus hparams, exec_pending h, fun hi => ?_, ?_, ?_⟩
  · have hcodes : ∀ j ∈ [Instr.sel0, .sel1, .sel2, .sel3, .sel4, .sel5, .sel6, .sel7], portsDriven j = .fFreq := by decide
    have hport : portsDriven i = .fFreq := hi.elim (fun ⟨_, _, hfreq⟩ => hfreq ▸ rfl) (hcodes i)
    obtain ⟨n, clk, hnext⟩ := exec_fFreq_eq_next_iff hport
    obtain ⟨-, rfl⟩ := (hnext s t).mp h
    exact ⟨rfl, rfl, rfl⟩
  · rintro ⟨hz, f, rfl⟩
    obtain ⟨-, rfl⟩ := exec_divsel_eq_next_iff.mp h
    exact ⟨rfl, rfl, rfl⟩
  · rintro en b hz f rfl
    obtain ⟨-, -, old, hold, rfl⟩ := exec_divcfg_eq_next_iff.mp h
    refine ⟨rfl, rfl, fun b' hb => divcfgState_getElem?_ne hb, fun old' new hold' hnew => ?_⟩
    cases hold.symm.trans hold'
    cases (divcfgState_getElem?_self hold).symm.trans hnew
    exact ⟨rfl, rfl, rfl⟩

/-! ### Order of operations -/

/-- The order of two operations does not matter. -/
def OrderFree (i j : Instr) : Prop :=
  ∀ s u, (∃ t, exec i s = .next t ∧ exec j t = .next u) ↔ ∃ v, exec j s = .next v ∧ exec i v = .next u

theorem OrderFree.symm {i j : Instr} (h : OrderFree i j) : OrderFree j i := fun s u => (h s u).symm

theorem orderFree_fFreq_divsel {i : Instr} (hi : portsDriven i = .fFreq) (clkInHz reqHz : Nat) :
    OrderFree i (.divsel clkInHz reqHz) := by
  obtain ⟨n, clk, hnext⟩ := exec_fFreq_eq_next_iff hi
  intro s u
  simp only [hnext, exec_divsel_eq_next_iff]
  constructor
  · rintro ⟨_, ⟨hn, rfl⟩, hreq, rfl⟩
    exact ⟨_, ⟨hreq, rfl⟩, hn, rfl⟩
  · rintro ⟨_, ⟨hreq, rfl⟩, hn, rfl⟩
    exact ⟨_, ⟨hn, rfl⟩, hreq, rfl⟩

theorem orderFree_fFreq_divcfg {i : Instr} (hi : portsDriven i = .fFreq) (en : Bool) (b clkInHz reqHz : Nat) :
    OrderFree i (.divcfg en b clkInHz reqHz) := by
  obtain ⟨n, clk, hnext⟩ := exec_fFreq_eq_next_iff hi
  intro s u
  simp only [hnext, exec_divcfg_eq_next_iff]
  constructor
  · rintro ⟨_, ⟨hn, rfl⟩, hen, hreq, old, hold, rfl⟩
    exact ⟨_, ⟨hen, hreq, old, hold, rfl⟩, hn, rfl⟩
  · rintro ⟨_, ⟨hen, hreq, old, hold, rfl⟩, hn, rfl⟩
    exact ⟨_, ⟨hn, rfl⟩, hen, hreq, old, hold, rfl⟩

theorem orderFree_divsel_divcfg (hz f : Nat) (en : Bool) (b clkInHz reqHz : Nat) :
    OrderFree (.divsel hz f) (.divcfg en b clkInHz reqHz) := by
  intro s u
  simp only [exec_divsel_eq_next_iff, exec_divcfg_eq_next_iff]
  constructor
  · rintro ⟨_, ⟨hf, rfl⟩, hen, hreq, old, hold, rfl⟩
    refine ⟨_, ⟨hen, hreq, old, hold, rfl⟩, hf, ?_⟩
    rw [divcfgState_params]
    rfl
  · rintro ⟨_, ⟨hen, hreq, old, hold, rfl⟩, hf, rfl⟩
    refine ⟨_, ⟨hf, rfl⟩, hen, hreq, old, hold, ?_⟩
    rw [divcfgState_params]
    rfl

theorem portsDriven_cases (i : Instr) : portsDriven i = .fFreq ∨ (∃ clkInHz reqHz, i = .divsel clkInHz reqHz) ∨
    ∃ en bus clkInHz reqHz, i = .divcfg en bus clkInHz reqHz := by
  have hcodes : ∀ row ∈ selCodeRows, portsDriven row.1 = .fFreq := by decide
  obtain ⟨n, clkInHz, rfl⟩ | hsel | hcfg | ⟨n, hrow⟩ := instr_cases i
  · exact .inl rfl
  · exact .inr (.inl hsel)
  · exact .inr (.inr hcfg)
  · exact .inl (hcodes _ hrow)

theorem orderFree_of_ports_ne {i j : Instr} (h : portsDriven i ≠ portsDriven j) : OrderFree i j := by
  obtain hi | ⟨B, f, rfl⟩ | ⟨en, b, B, f, rfl⟩ := portsDriven_cases i <;>
    obtain hj | ⟨B', f', rfl⟩ | ⟨en', b', B', f', rfl⟩ := portsDriven_cases j
  · exact absurd (hi.trans hj.symm) h
  · exact orderFree_fFreq_divsel hi B' f'
  · exact orderFree_fFreq_divcfg hi en' b' B' f'
  · exact (orderFree_fFreq_divsel hj B f).symm
  · exact absurd rfl h
  · exact orderFree_divsel_divcfg B f en' b' B' f'
  · exact (orderFree_fFreq_divcfg hj en b B f).symm
  · exact (orderFree_divsel_divcfg B' f' en b B f).symm
  · exact absurd rfl h

/-- Settles O36: two operations on different ports are `OrderFree`. -/
theorem operationsOnDifferentPortsCommute : Obligations.OperationsOnDifferentPortsCommute := by
  unfold Obligations.OperationsOnDifferentPortsCommute
  exact fun s t u i j hports hi hj => (orderFree_of_ports_ne hports s u).mp ⟨t, hi, hj⟩

/-- Settles O35: each lookup leaves the record the other one reads. -/
theorem stepsOnDifferentBusesCommute : Obligations.StepsOnDifferentBusesCommute := by
  unfold Obligations.StepsOnDifferentBusesCommute
  intro s t u b b' hz hz' f f' hne ht hu
  obtain ⟨-, hf, old, hold, rfl⟩ := exec_divcfg_eq_next_iff.mp ht
  obtain ⟨-, hf', old', hold', rfl⟩ := exec_divcfg_eq_next_iff.mp hu
  rw [divcfgState_getElem?_ne hne.symm] at hold'
  have hw : (divcfgState b' hz' f' old' s).buses[b]? = some old := (divcfgState_getElem?_ne hne).trans hold
  refine ⟨_, _, execDivcfg_completes hz' hold' hf', execDivcfg_completes hz hw hf, ?_,
    divcfgState_cfg_congr b hz f (divcfgState_params ..) rfl, (divcfgState_cfg_congr b' hz' f' (divcfgState_params ..) rfl).symm⟩
  simp only [divcfgState, State.setCfg_buses, State.setCfg_params, State.modifyBus_params, State.modifyBus_buses]
  exact (List.modify_modify_ne _ _ _ hne).symm

end Sys2Proof.Machine
end

section
/-! SUPPORT and PROOF of 42_divcfg.md rules R75 and R76 and 70_reset_and_hazards.md section 3. What `divact`, `acquire` and
`release` do is said once per case (`runAcquire_idle`, `runAcquire_acquired`, `runRelease_configured`), and a bus after an
`acquire` is `Bus.acquire`. -/

namespace Sys2Proof.Machine

/-! ### Calls, case by case -/

theorem runDivact_completes {reqHz : Nat} (clkInHz : Nat) (s : State) (hreq : reqHz ≠ 0) :
    runDivact clkInHz reqHz s = .next
      ((s.setSel { clkInHz := clkInHz, reqHz := reqHz, sel := selector s.params clkInHz reqHz }).setFreq
        (FreqPorts.of (selector s.params clkInHz reqHz) clkInHz)) := by
  have hsel : execDivsel clkInHz reqHz s = _ := exec_divsel_eq_next_iff.mpr ⟨hreq, rfl⟩
  rw [runDivact, hsel]
  exact exec_divfreq_eq_next clkInHz (selector_le s.params clkInHz reqHz)

theorem runDivact_zeroRequest (clkInHz : Nat) (s : State) : runDivact clkInHz 0 s = .fault .zeroRequest := rfl

theorem runAcquire_outOfRange {bus : Nat} {s : State} (reqHz : Nat) (h : s.buses[bus]? = none) :
    runAcquire bus reqHz s = .fault (.busIndex bus) := by
  rw [runAcquire, h]
  rfl

theorem runAcquire_acquired {bus : Nat} {old : Bus} {s : State} (reqHz : Nat) (hold : s.buses[bus]? = some old)
    (hwindow : old.window = .acquired) : runAcquire bus reqHz s = .refused (.reprogramInsideWindow bus) := by
  simp only [runAcquire, hold, hwindow]

/-- The bus after an `acquire` that completes. -/
def Bus.acquire (P : Params) (reqHz : Nat) (bus : Bus) : Bus :=
  (bus.lookup P bus.clockHz reqHz).program (bus.record.lookup P bus.clockHz reqHz).cachedDivider

/-- The state after an `acquire` that completes. -/
def acquireState (bus reqHz : Nat) (old : Bus) (s : State) : State :=
  (divcfgState bus old.clockHz reqHz old s).modifyBus bus
    (Bus.program (old.record.lookup s.params old.clockHz reqHz).cachedDivider)

theorem runAcquire_idle {bus reqHz : Nat} {old : Bus} {s : State} (hold : s.buses[bus]? = some old)
    (hwindow : old.window = .idle) (hreq : reqHz ≠ 0) : runAcquire bus reqHz s = .next (acquireState bus reqHz old s) := by
  simp only [runAcquire, hold, hwindow, execDivcfg_completes old.clockHz hold hreq]
  rfl

theorem runAcquire_zeroRequest {bus : Nat} {old : Bus} {s : State} (hold : s.buses[bus]? = some old)
    (hwindow : old.window = .idle) : runAcquire bus 0 s = .fault .zeroRequest := by
  have hbus : bus < s.nbus := (List.getElem?_eq_some_iff.mp hold).1
  simp only [runAcquire, hold, hwindow, execDivcfg_zeroRequest old.clockHz hbus]

theorem runRelease_configured {bus : Nat} {old : Bus} {s : State} (hold : s.buses[bus]? = some old) :
    runRelease bus s = .next (s.modifyBus bus (Bus.release s.params)) := by
  rw [runRelease, hold]

/-- A call whose frequencies fit runs. -/
theorem runCall_of_wellFormed {l : Line} {s : State} {k : Result} (h : l.wellFormed s.params = true) : runCall l s k = k :=
  if_pos h

/-! ### A bus after `acquire` -/

/-- The divider runs with the selector looked up, at the clock reported. -/
theorem Bus.acquire_output (P : Params) (reqHz : Nat) (bus : Bus) : (bus.acquire P reqHz).output =
    some (FreqPorts.of (bus.record.lookup P bus.clockHz reqHz).cachedDivider bus.clockHz) := rfl

theorem acquireState_getElem?_self {bus : Nat} {old : Bus} {s : State} (reqHz : Nat) (hold : s.buses[bus]? = some old) :
    (acquireState bus reqHz old s).buses[bus]? = some (old.acquire s.params reqHz) := by
  rw [acquireState, State.modifyBus_getElem?_self, divcfgState_getElem?_self hold]
  rfl

theorem acquireState_getElem?_ne {bus b : Nat} (reqHz : Nat) (old : Bus) (s : State) (h : b ≠ bus) :
    (acquireState bus reqHz old s).buses[b]? = s.buses[b]? := by
  rw [acquireState, State.modifyBus_getElem?_ne _ _ _ _ h, divcfgState_getElem?_ne h]

/-! ### Steps that run a call -/

theorem step_acquire {s : State} {b f : Nat} {rest : List Line} (hp : s.pending = .acquire b f :: rest)
    (hf : Fits s.width f) : step s = runAcquire b f (s.setPending rest) :=
  (step_cons hp).trans (runCall_of_wellFormed (decide_eq_true hf))

theorem step_release {s : State} {b : Nat} {rest : List Line} (hp : s.pending = .release b :: rest) :
    step s = runRelease b (s.setPending rest) :=
  (step_cons hp).trans (runCall_of_wellFormed rfl)

theorem step_divact {s : State} {clkInHz reqHz : Nat} {rest : List Line} (hp : s.pending = .divact clkInHz reqHz :: rest)
    (hclk : Fits s.width clkInHz) (hreq : Fits s.width reqHz) :
    step s = runDivact clkInHz reqHz (s.setPending rest) :=
  (step_cons hp).trans (runCall_of_wellFormed (by simp [Line.wellFormed, hclk, hreq]))

/-- Settles O51: the step is `runAcquire_idle`, and its bus is `Bus.acquire`. -/
theorem acquireProgramsTheReturnedSelector : Obligations.AcquireProgramsTheReturnedSelector := by
  unfold Obligations.AcquireProgramsTheReturnedSelector
  intro s b f rest old hp hold hidle hf hfits
  have hstep : step s = .next (acquireState b f old (s.setPending rest)) :=
    (step_acquire hp hfits).trans (runAcquire_idle hold hidle hf)
  exact ⟨_, _, hstep, rfl, acquireState_getElem?_self f hold, rfl, rfl, rfl, rfl, Bus.acquire_output s.params f old,
    fun _ hb => acquireState_getElem?_ne f old (s.setPending rest) hb⟩

/-- Settles O53: the window is checked before the request. -/
theorem reprogrammingInsideAWindowIsRefused : Obligations.ReprogrammingInsideAWindowIsRefused := by
  unfold Obligations.ReprogrammingInsideAWindowIsRefused
  intro s b f rest old hp hold hwindow hfits
  exact (step_acquire hp hfits).trans (runAcquire_acquired f hold hwindow)

/-- Settles O52: `release` reads no window, and `Bus.release` keeps the record. -/
theorem releaseKeepsTheCache : Obligations.ReleaseKeepsTheCache := by
  unfold Obligations.ReleaseKeepsTheCache
  intro s b rest old hp hold
  have hnew : ((s.setPending rest).modifyBus b (Bus.release s.params)).buses[b]? = some (old.release s.params) := by
    rw [State.modifyBus_getElem?_self, State.setPending_buses, hold, Option.map_some]
  exact ⟨_, _, (step_release hp).trans (runRelease_configured hold), rfl, hnew, rfl, rfl, rfl, rfl, neutralSel_le s.params,
    fun _ hb => State.modifyBus_getElem?_ne _ _ _ (s.setPending rest) hb⟩

/-- Settles O54: the selector is in range, so `DIVFREQ` completes with its exact output. -/
theorem divactComputesTheActualClock : Obligations.DivactComputesTheActualClock := by
  unfold Obligations.DivactComputesTheActualClock
  intro s clkInHz reqHz rest hp hclk hreq hne
  exact ⟨_, (step_divact hp hclk hreq).trans (runDivact_completes clkInHz (s.setPending rest) hne), rfl,
    FreqPorts.of_outputHz_eq (selector s.params clkInHz reqHz) clkInHz, rfl, rfl⟩

/-! ### A stale hit -/

theorem step_acquire_next {s t : State} {b f : Nat} {rest : List Line} {old : Bus}
    (hp : s.pending = .acquire b f :: rest) (hold : s.buses[b]? = some old) (h : step s = .next t) :
    t.pending = rest ∧ t.buses[b]? = some (old.acquire s.params f) := by
  obtain ⟨-, hrun⟩ := runCall_next ((step_cons hp).symm.trans h)
  obtain ⟨old', u, hold', -, hcfg, rfl⟩ := runAcquire_next hrun
  cases hold.symm.trans hold'
  obtain ⟨old', hold', -, -, rfl⟩ := execDivcfg_next hcfg
  cases hold.symm.trans hold'
  exact ⟨rfl, acquireState_getElem?_self f (s := s.setPending rest) hold⟩

theorem step_release_next {s t : State} {b : Nat} {rest : List Line} {old : Bus}
    (hp : s.pending = .release b :: rest) (hold : s.buses[b]? = some old) (h : step s = .next t) :
    t.pending = rest ∧ t.buses[b]? = some (old.release s.params) := by
  obtain ⟨-, hrun⟩ := runCall_next ((step_cons hp).symm.trans h)
  obtain ⟨-, -, rfl⟩ := runRelease_next hrun
  refine ⟨rfl, ?_⟩
  rw [State.modifyBus_getElem?_self, State.setPending_buses, hold, Option.map_some, State.setPending_params]

theorem step_busClock_next {s t : State} {b hz : Nat} {rest : List Line} {old : Bus}
    (hp : s.pending = .busClock b hz :: rest) (hold : s.buses[b]? = some old) (h : step s = .next t) :
    t.pending = rest ∧ t.buses[b]? = some (old.report hz) := by
  obtain ⟨-, hrun⟩ := runCall_next ((step_cons hp).symm.trans h)
  obtain ⟨-, -, rfl⟩ := runBusClock_next hrun
  refine ⟨rfl, ?_⟩
  rw [State.modifyBus_getElem?_self, State.setPending_buses, hold, Option.map_some]

/-- On a hit the divider runs at the clock now reported over the factor cached, whatever the clock was then. -/
theorem Bus.acquire_output_hit {f : Nat} {bus : Bus} (P : Params) (h : bus.record.cachedClockHz = f) :
    (bus.acquire P f).output = some (FreqPorts.of bus.record.cachedDivider bus.clockHz) := by
  subst h
  rw [Bus.acquire_output, BusRecord.lookup_hit]

/-- Settles O55: `release` and the report keep the record, so the second `acquire` hits what the first one missed. -/
theorem changedBusClockLeavesTheSelectorStale : Obligations.ChangedBusClockLeavesTheSelectorStale := by
  unfold Obligations.ChangedBusClockLeavesTheSelectorStale
  intro s t u v b hz' f rest old new hp hold hmiss hst htu huv w hvw hnew
  obtain ⟨hpt, ht⟩ := step_acquire_next hp hold hst
  obtain ⟨hpu, hu⟩ := step_release_next hpt ht htu
  obtain ⟨hpv, hv⟩ := step_busClock_next hpu hu huv
  obtain ⟨-, hw⟩ := step_acquire_next hpv hv hvw
  cases hw.symm.trans hnew
  have hrecord : (((old.acquire s.params f).release t.params).report hz').record =
      { cachedClockHz := f, cachedDivider := selector s.params old.clockHz f } := BusRecord.lookup_miss hmiss
  refine ⟨?_, rfl⟩
  rw [Bus.acquire_output_hit v.params (by rw [hrecord]), hrecord]
  rfl

end Sys2Proof.Machine
end

section
/-! SUPPORT and PROOF of 10_state.md rule R18. Two states alike but for the selectors of unset records stay so under every update
of the state; a lookup even makes the records of its bus equal (`SameButUnset.lookup_record_eq`), so what `DIVCFG` returns is the
same. Each operation and call then has the same case on both sides. -/

namespace Sys2Proof.Machine

/-! ### Buses -/

/-- A nonzero request that hits hits a set record, so both records are equal after the lookup. -/
theorem SameButUnset.lookup_record_eq {a b : Bus} {reqHz : Nat} (h : SameButUnset a b) (P : Params) (clkInHz : Nat)
    (hreq : reqHz ≠ 0) : a.record.lookup P clkInHz reqHz = b.record.lookup P clkInHz reqHz := by
  by_cases hhit : reqHz = a.record.cachedClockHz
  · subst hhit
    have hrecord : a.record = b.record := by
      obtain ⟨⟨_, _⟩, _, _, _⟩ := a
      obtain ⟨⟨_, _⟩, _, _, _⟩ := b
      exact congrArg₂ BusRecord.mk h.request (h.divider hreq)
    rw [hrecord]
  · rw [BusRecord.lookup_miss hhit, BusRecord.lookup_miss (h.request ▸ hhit)]

theorem SameButUnset.lookup {a b : Bus} {reqHz : Nat} (h : SameButUnset a b) (P : Params) (clkInHz : Nat)
    (hreq : reqHz ≠ 0) : SameButUnset (a.lookup P clkInHz reqHz) (b.lookup P clkInHz reqHz) where
  request := congrArg BusRecord.cachedClockHz (h.lookup_record_eq P clkInHz hreq)
  divider _ := congrArg BusRecord.cachedDivider (h.lookup_record_eq P clkInHz hreq)
  window := h.window
  programmed := h.programmed
  clock := h.clock

theorem SameButUnset.program {a b : Bus} (h : SameButUnset a b) (n : Nat) : SameButUnset (a.program n) (b.program n) :=
  ⟨h.request, h.divider, rfl, rfl, h.clock⟩

theorem SameButUnset.release {a b : Bus} (h : SameButUnset a b) (P : Params) : SameButUnset (a.release P) (b.release P) :=
  ⟨h.request, h.divider, rfl, rfl, h.clock⟩

theorem SameButUnset.report {a b : Bus} (h : SameButUnset a b) (hz : Nat) : SameButUnset (a.report hz) (b.report hz) :=
  ⟨h.request, h.divider, h.window, h.programmed, rfl⟩

theorem forall₂_modify {α : Type} {R : α → α → Prop} {f : α → α} (hf : ∀ a b, R a b → R (f a) (f b)) {l l' : List α}
    (h : List.Forall₂ R l l') (i : Nat) : List.Forall₂ R (l.modify i f) (l'.modify i f) := by
  induction h generalizing i with
  | nil => simp
  | cons hab hl ih =>
    cases i with
    | zero => exact .cons (hf _ _ hab) hl
    | succ i => exact .cons hab (ih i)

theorem forall₂_getElem? {α : Type} {R : α → α → Prop} {l l' : List α} (h : List.Forall₂ R l l') (i : Nat) :
    (l[i]? = none ∧ l'[i]? = none) ∨ ∃ a b, l[i]? = some a ∧ l'[i]? = some b ∧ R a b := by
  induction h generalizing i with
  | nil => exact .inl ⟨rfl, rfl⟩
  | cons hab _ ih =>
    cases i with
    | zero => exact .inr ⟨_, _, rfl, rfl, hab⟩
    | succ i => exact ih i

/-! ### States -/

theorem State.AlikeButUnset.params_eq {s t : State} (h : s.AlikeButUnset t) : s.params = t.params := by
  rw [State.params, State.params, h.width, h.shift, h.maxDivider, h.buses.length_eq]

theorem State.AlikeButUnset.setPending {s t : State} (h : s.AlikeButUnset t) (ls : List Line) :
    (s.setPending ls).AlikeButUnset (t.setPending ls) :=
  ⟨h.width, h.shift, h.maxDivider, h.buses, h.freq, h.sel, h.cfg, rfl⟩

theorem State.AlikeButUnset.setFreq {s t : State} (h : s.AlikeButUnset t) (p : FreqPorts) :
    (s.setFreq p).AlikeButUnset (t.setFreq p) :=
  ⟨h.width, h.shift, h.maxDivider, h.buses, rfl, h.sel, h.cfg, h.pending⟩

theorem State.AlikeButUnset.setSel {s t : State} (h : s.AlikeButUnset t) (p : SelPorts) :
    (s.setSel p).AlikeButUnset (t.setSel p) :=
  ⟨h.width, h.shift, h.maxDivider, h.buses, h.freq, rfl, h.cfg, h.pending⟩

theorem State.AlikeButUnset.setCfg {s t : State} (h : s.AlikeButUnset t) (p : CfgPorts) :
    (s.setCfg p).AlikeButUnset (t.setCfg p) :=
  ⟨h.width, h.shift, h.maxDivider, h.buses, h.freq, h.sel, rfl, h.pending⟩

theorem State.AlikeButUnset.modifyBus {s t : State} {f : Bus → Bus} (h : s.AlikeButUnset t)
    (hf : ∀ a b, SameButUnset a b → SameButUnset (f a) (f b)) (bus : Nat) :
    (s.modifyBus bus f).AlikeButUnset (t.modifyBus bus f) :=
  ⟨h.width, h.shift, h.maxDivider, forall₂_modify hf h.buses bus, h.freq, h.sel, h.cfg, h.pending⟩

theorem State.AlikeButUnset.divcfgState {s t : State} {a b : Bus} {reqHz : Nat} (h : s.AlikeButUnset t)
    (hab : SameButUnset a b) (bus clkInHz : Nat) (hreq : reqHz ≠ 0) :
    (divcfgState bus clkInHz reqHz a s).AlikeButUnset (divcfgState bus clkInHz reqHz b t) := by
  rw [Machine.divcfgState, Machine.divcfgState, ← h.params_eq, hab.lookup_record_eq _ _ hreq]
  exact (h.modifyBus (fun _ _ hab => hab.lookup s.params clkInHz hreq) bus).setCfg _

theorem State.AlikeButUnset.acquireState {s t : State} {a b : Bus} {reqHz : Nat} (h : s.AlikeButUnset t)
    (hab : SameButUnset a b) (bus : Nat) (hreq : reqHz ≠ 0) :
    (acquireState bus reqHz a s).AlikeButUnset (acquireState bus reqHz b t) := by
  rw [Machine.acquireState, Machine.acquireState, ← h.params_eq, ← hab.clock, hab.lookup_record_eq _ _ hreq]
  exact (h.divcfgState hab bus a.clockHz hreq).modifyBus (fun _ _ hab => hab.program _) bus

/-! ### Operations -/

theorem evalFreq_alike {s t : State} (h : s.AlikeButUnset t) (n clkInHz : Nat) :
    AlikeOutcomes (evalFreq n clkInHz s) (evalFreq n clkInHz t) := by
  rw [evalFreq_eq, evalFreq_eq, ← h.maxDivider]
  split
  · exact h.setFreq _
  · rfl

theorem driveSelCode_alike {s t : State} (h : s.AlikeButUnset t) (n : Nat) :
    AlikeOutcomes (driveSelCode n s) (driveSelCode n t) := by
  rw [driveSelCode, driveSelCode, ← h.freq]
  exact evalFreq_alike h n s.freq.clkInHz

theorem execDivsel_alike {s t : State} (h : s.AlikeButUnset t) (clkInHz reqHz : Nat) :
    AlikeOutcomes (execDivsel clkInHz reqHz s) (execDivsel clkInHz reqHz t) := by
  rw [execDivsel, execDivsel, ← h.params_eq]
  cases decide (reqHz ≠ 0) with
  | false => rfl
  | true => exact h.setSel _

theorem execDivcfg_alike {s t : State} (h : s.AlikeButUnset t) (clkEn : Bool) (bus clkInHz reqHz : Nat) :
    AlikeOutcomes (execDivcfg clkEn bus clkInHz reqHz s) (execDivcfg clkEn bus clkInHz reqHz t) := by
  obtain ⟨hs, ht⟩ | ⟨a, b, hs, ht, hab⟩ := forall₂_getElem? h.buses bus
  · rw [execDivcfg_outOfRange clkEn clkInHz reqHz (List.getElem?_eq_none_iff.mp hs),
      execDivcfg_outOfRange clkEn clkInHz reqHz (List.getElem?_eq_none_iff.mp ht)]
    rfl
  · obtain ⟨hs', -⟩ := List.getElem?_eq_some_iff.mp hs
    obtain ⟨ht', -⟩ := List.getElem?_eq_some_iff.mp ht
    cases clkEn with
    | false =>
      rw [execDivcfg_clockDomainOff clkInHz reqHz hs', execDivcfg_clockDomainOff clkInHz reqHz ht']
      rfl
    | true =>
      by_cases hreq : reqHz = 0
      · subst hreq
        rw [execDivcfg_zeroRequest clkInHz hs', execDivcfg_zeroRequest clkInHz ht']
        rfl
      · rw [execDivcfg_completes clkInHz hs hreq, execDivcfg_completes clkInHz ht hreq]
        exact h.divcfgState hab bus clkInHz hreq

theorem exec_alike {s t : State} (h : s.AlikeButUnset t) (i : Instr) : AlikeOutcomes (exec i s) (exec i t) := by
  obtain ⟨n, clkInHz, rfl⟩ | ⟨clkInHz, reqHz, rfl⟩ | ⟨en, bus, clkInHz, reqHz, rfl⟩ | ⟨n, hrow⟩ := instr_cases i
  · exact evalFreq_alike h n clkInHz
  · exact execDivsel_alike h clkInHz reqHz
  · exact execDivcfg_alike h en bus clkInHz reqHz
  · rw [exec_selCode hrow, exec_selCode hrow]
    exact driveSelCode_alike h n

/-! ### Calls and steps -/

theorem runDivact_alike {s t : State} (h : s.AlikeButUnset t) (clkInHz reqHz : Nat) :
    AlikeOutcomes (runDivact clkInHz reqHz s) (runDivact clkInHz reqHz t) := by
  by_cases hreq : reqHz = 0
  · subst hreq
    rw [runDivact_zeroRequest, runDivact_zeroRequest]
    rfl
  · rw [runDivact_completes clkInHz s hreq, runDivact_completes clkInHz t hreq, ← h.params_eq]
    exact (h.setSel _).setFreq _

theorem runAcquire_alike {s t : State} (h : s.AlikeButUnset t) (bus reqHz : Nat) :
    AlikeOutcomes (runAcquire bus reqHz s) (runAcquire bus reqHz t) := by
  obtain ⟨hs, ht⟩ | ⟨a, b, hs, ht, hab⟩ := forall₂_getElem? h.buses bus
  · rw [runAcquire_outOfRange reqHz hs, runAcquire_outOfRange reqHz ht]
    rfl
  · cases hwindow : a.window with
    | acquired =>
      rw [runAcquire_acquired reqHz hs hwindow, runAcquire_acquired reqHz ht (hab.window ▸ hwindow)]
      rfl
    | idle =>
      by_cases hreq : reqHz = 0
      · subst hreq
        rw [runAcquire_zeroRequest hs hwindow, runAcquire_zeroRequest ht (hab.window ▸ hwindow)]
        rfl
      · rw [runAcquire_idle hs hwindow hreq, runAcquire_idle ht (hab.window ▸ hwindow) hreq]
        exact h.acquireState hab bus hreq

theorem runRelease_alike {s t : State} (h : s.AlikeButUnset t) (bus : Nat) :
    AlikeOutcomes (runRelease bus s) (runRelease bus t) := by
  rw [runRelease, runRelease, ← h.params_eq]
  obtain ⟨hs, ht⟩ | ⟨a, b, hs, ht, -⟩ := forall₂_getElem? h.buses bus
  · rw [hs, ht]
    rfl
  · rw [hs, ht]
    exact h.modifyBus (fun _ _ hab => hab.release s.params) bus

theorem runBusClock_alike {s t : State} (h : s.AlikeButUnset t) (bus hz : Nat) :
    AlikeOutcomes (runBusClock bus hz s) (runBusClock bus hz t) := by
  rw [runBusClock, runBusClock]
  obtain ⟨hs, ht⟩ | ⟨a, b, hs, ht, -⟩ := forall₂_getElem? h.buses bus
  · rw [hs, ht]
    rfl
  · rw [hs, ht]
    exact h.modifyBus (fun _ _ hab => hab.report hz) bus

/-- A call is refused by its own operands, whatever the records. -/
theorem runCall_alike {s t : State} {k k' : Result} (h : s.AlikeButUnset t) (l : Line) (hk : AlikeOutcomes k k') :
    AlikeOutcomes (runCall l s k) (runCall l t k') := by
  rw [runCall, runCall, ← h.params_eq]
  split
  · exact hk
  · rfl

theorem runBundle_alike {s t : State} (h : s.AlikeButUnset t) (b : Bundle) :
    AlikeOutcomes (runBundle b s) (runBundle b t) := by
  rw [runBundle, runBundle, ← h.params_eq, ← h.freq]
  cases decodeOnPorts s.params s.freq.clkInHz b with
  | instr i => exact exec_alike h i
  | error e => rfl

theorem runLine_alike {s t : State} (h : s.AlikeButUnset t) (l : Line) : AlikeOutcomes (runLine l s) (runLine l t) := by
  cases l with
  | bundle b => exact runBundle_alike h b
  | divact clkInHz reqHz => exact runCall_alike h _ (runDivact_alike h clkInHz reqHz)
  | acquire bus reqHz => exact runCall_alike h _ (runAcquire_alike h bus reqHz)
  | release bus => exact runCall_alike h _ (runRelease_alike h bus)
  | busClock bus hz => exact runCall_alike h _ (runBusClock_alike h bus hz)

/-- Settles O45: both states have the same line pending, and no line tells the selector of an unset record. -/
theorem unsetSelectorIsUnobservable : Obligations.UnsetSelectorIsUnobservable := by
  unfold Obligations.UnsetSelectorIsUnobservable
  intro s t h
  cases hp : s.pending with
  | nil =>
    rw [step_nil hp, step_nil (h.pending ▸ hp)]
    exact h
  | cons l rest =>
    rw [step_cons hp, step_cons (h.pending ▸ hp)]
    exact runLine_alike (h.setPending rest) l

end Sys2Proof.Machine
end

section
/-! SUPPORT and PROOF of what can happen to a bus record (10_state.md sections 2 and 4, 20_memory.md section 3), over one step and over
runs of operations. A lookup is read at one bus by `RecordsLookedUp.at`: another bus, a hit, or a miss. -/

namespace Sys2Proof.Machine

/-! ### One step -/

/-- A lookup as the record of one bus sees it. -/
theorem RecordsLookedUp.at {bus clkInHz reqHz b : Nat} {s t : State} {r : BusRecord}
    (h : RecordsLookedUp bus clkInHz reqHz s t) (hr : s.recordOf b = some r) :
    (b ≠ bus ∧ t.recordOf b = some r) ∨
    (b = bus ∧ reqHz = r.cachedClockHz ∧ t.recordOf b = some r) ∨
    (b = bus ∧ reqHz ≠ r.cachedClockHz ∧
      t.recordOf b = some { cachedClockHz := reqHz, cachedDivider := selector s.params clkInHz reqHz }) := by
  by_cases hb : b = bus
  · subst hb
    obtain ⟨old, hold, hnew⟩ := h.self
    cases hold.symm.trans hr
    by_cases hhit : reqHz = r.cachedClockHz
    · subst hhit
      rw [BusRecord.lookup_hit] at hnew
      exact .inr (.inl ⟨rfl, rfl, hnew⟩)
    · rw [BusRecord.lookup_miss hhit] at hnew
      exact .inr (.inr ⟨rfl, hhit, hnew⟩)
  · exact .inl ⟨hb, (h.other b hb).trans hr⟩

/-- Settles O40: a step that changes the record of `b` is a lookup on `b` that misses. -/
theorem recordsChangeOnlyByMissingDivcfg : Obligations.RecordsChangeOnlyByMissingDivcfg := by
  unfold Obligations.RecordsChangeOnlyByMissingDivcfg
  intro s t b r r' h hr hr' hne
  have hchanged : t.recordOf b ≠ some r := fun hsame => hne (Option.some.inj (hr'.symm.trans hsame))
  obtain ⟨hkept, -⟩ | ⟨bus, clkInHz, reqHz, hpres, hlook⟩ := step_records h
  · exact absurd ((hkept.records b).trans hr) hchanged
  · obtain ⟨-, hsame⟩ | ⟨-, -, hsame⟩ | ⟨rfl, hmiss, hnew⟩ := hlook.at hr
    · exact absurd hsame hchanged
    · exact absurd hsame hchanged
    · cases hr'.symm.trans hnew
      exact ⟨clkInHz, reqHz, hlook.request, hmiss, rfl, hpres⟩

/-- Settles O41: a lookup leaves its request in the record, and a request that completes is not 0. -/
theorem setRecordStaysSet : Obligations.SetRecordStaysSet := by
  unfold Obligations.SetRecordStaysSet
  intro s t b r h hr
  obtain ⟨hkept, -⟩ | ⟨bus, clkInHz, reqHz, -, hlook⟩ := step_records h
  · exact ⟨r, (hkept.records b).trans hr, id⟩
  · obtain ⟨-, hsame⟩ | ⟨-, -, hsame⟩ | ⟨-, -, hnew⟩ := hlook.at hr
    · exact ⟨r, hsame, id⟩
    · exact ⟨r, hsame, id⟩
    · exact ⟨_, hnew, fun _ => hlook.request⟩

/-! ### Runs -/

theorem runInstrs_cons_next {i : Instr} {is : List Instr} {s t : State} (h : runInstrs (i :: is) s = .next t) :
    ∃ u, exec i s = .next u ∧ runInstrs is u = .next t := by
  unfold runInstrs at h
  split at h
  next u hu => exact ⟨u, hu, h⟩
  next hn => exact absurd h (hn t)

theorem runInstrs_cons_of_next {i : Instr} {s u : State} (is : List Instr) (h : exec i s = .next u) :
    runInstrs (i :: is) s = runInstrs is u := by
  simp only [runInstrs, h]

theorem LastMiss.cons {b : Nat} {i : Instr} {is : List Instr} {s u : State} {r : BusRecord} (hi : exec i s = .next u)
    (h : LastMiss b is u r) : LastMiss b (i :: is) s r := by
  obtain ⟨pre, clkInHz, reqHz, post, v, r₀, rfl, hpre, hr₀, hmiss, rfl, hpost⟩ := h
  refine ⟨i :: pre, clkInHz, reqHz, post, v, r₀, rfl, ?_, hr₀, hmiss, ?_, hpost⟩
  · rw [runInstrs_cons_of_next pre hi, hpre]
  · rw [exec_params hi]

/-- `r` is the record of bus `b` before a run and `r'` the one after it: untouched, or what the last miss of the run wrote. -/
def RecordHistory (b : Nat) (is : List Instr) (s : State) (r r' : BusRecord) : Prop :=
  (r' = r ∧ ∀ en hz f, Instr.divcfg en b hz f ∈ is → f = r.cachedClockHz) ∨ LastMiss b is s r'

/-- An operation before the run that kept the record, and requested what is cached if it was a `DIVCFG` on `b`. -/
theorem RecordHistory.cons {b : Nat} {i : Instr} {is : List Instr} {s u : State} {r r' : BusRecord}
    (hi : exec i s = .next u) (hreq : ∀ en hz f, i = .divcfg en b hz f → f = r.cachedClockHz)
    (h : RecordHistory b is u r r') : RecordHistory b (i :: is) s r r' := by
  refine h.imp (fun ⟨hkept, hall⟩ => ⟨hkept, fun en hz f hmem => ?_⟩) (.cons hi)
  obtain heq | hmem := List.mem_cons.mp hmem
  · exact hreq en hz f heq.symm
  · exact hall en hz f hmem

/-- A miss before the run: the run's own last miss, or this one. -/
theorem RecordHistory.lastMiss_cons {b clkInHz reqHz : Nat} {is : List Instr} {s u : State} {r r' : BusRecord}
    (hi : exec (.divcfg true b clkInHz reqHz) s = .next u) (hr : s.recordOf b = some r) (hmiss : reqHz ≠ r.cachedClockHz)
    (h : RecordHistory b is u { cachedClockHz := reqHz, cachedDivider := selector s.params clkInHz reqHz } r') :
    LastMiss b (.divcfg true b clkInHz reqHz :: is) s r' := by
  obtain ⟨rfl, hall⟩ | hlast := h
  · exact ⟨[], clkInHz, reqHz, is, s, r, rfl, rfl, hr, hmiss.symm, rfl, hall⟩
  · exact hlast.cons hi

theorem runInstrs_recordHistory {b : Nat} {is : List Instr} {s t : State} {r r' : BusRecord} (h : runInstrs is s = .next t)
    (hr : s.recordOf b = some r) (hr' : t.recordOf b = some r') : RecordHistory b is s r r' := by
  induction is generalizing s r with
  | nil =>
    cases h
    cases hr.symm.trans hr'
    exact .inl ⟨rfl, by simp⟩
  | cons i is ih =>
    obtain ⟨u, hi, hrun⟩ := runInstrs_cons_next h
    obtain ⟨hkept, hne⟩ | ⟨bus, clkInHz, reqHz, rfl, hlook⟩ := exec_records hi
    · exact (ih hrun ((hkept.records b).trans hr)).cons hi fun en hz f hcfg => absurd hcfg (hne en b hz f)
    · obtain ⟨hb, hsame⟩ | ⟨rfl, rfl, hsame⟩ | ⟨rfl, hmiss, hnew⟩ := hlook.at hr
      · refine (ih hrun hsame).cons hi fun en hz f hcfg => ?_
        cases hcfg
        exact absurd rfl hb
      · refine (ih hrun hsame).cons hi fun en hz f hcfg => ?_
        cases hcfg
        rfl
      · exact .inr ((ih hrun hnew).lastMiss_cons hi hr hmiss)

/-- Settles O43: by induction on the run, each operation seen from bus `b`. -/
theorem recordIsWhatTheLastMissWrote : Obligations.RecordIsWhatTheLastMissWrote :=
  fun _ _ _ _ _ _ h hr hr' => runInstrs_recordHistory h hr hr'

theorem onBus_of_ne_divcfg {i : Instr} (b : Nat) (h : ∀ en bus hz f, i ≠ .divcfg en bus hz f) : onBus b i = false := by
  cases i with
  | divcfg en bus hz f => exact absurd rfl (h en bus hz f)
  | _ => rfl

/-- An operation is on the bus, or it leaves the record of the bus. -/
theorem exec_onBus_cases {b : Nat} {i : Instr} {s t : State} (h : exec i s = .next t) :
    (onBus b i = false ∧ t.recordOf b = s.recordOf b) ∨
      onBus b i = true ∧ ∃ clkInHz reqHz, i = .divcfg true b clkInHz reqHz := by
  obtain ⟨hkept, hne⟩ | ⟨bus, clkInHz, reqHz, rfl, hlook⟩ := exec_records h
  · exact .inl ⟨onBus_of_ne_divcfg b hne, hkept.records b⟩
  · by_cases hb : b = bus
    · subst hb
      exact .inr ⟨beq_self_eq_true b, clkInHz, reqHz, rfl⟩
    · exact .inl ⟨beq_eq_false_iff_ne.mpr (Ne.symm hb), hlook.other b hb⟩

/-- A run projected to one bus, from any state with the same parameters and the same record on it: what the other operations do
between those of the bus does not reach its record. -/
theorem runInstrs_filter_onBus {b : Nat} {is : List Instr} {s s' t : State} (h : runInstrs is s = .next t)
    (hparams : s'.params = s.params) (hrec : s'.recordOf b = s.recordOf b) :
    ∃ u, runInstrs (is.filter (onBus b)) s' = .next u ∧ u.recordOf b = t.recordOf b := by
  induction is generalizing s s' with
  | nil =>
    cases h
    exact ⟨s', rfl, hrec⟩
  | cons i is ih =>
    obtain ⟨u, hi, hrun⟩ := runInstrs_cons_next h
    have hu : u.params = s.params := exec_params hi
    obtain ⟨hoff, hsame⟩ | ⟨hon, clkInHz, reqHz, rfl⟩ := exec_onBus_cases (b := b) hi
    · rw [List.filter_cons_of_neg (by simp [hoff])]
      exact ih hrun (hparams.trans hu.symm) (hrec.trans hsame.symm)
    · obtain ⟨-, hown⟩ := divcfgTouchesItsOwnBusOnly s true b clkInHz reqHz
      obtain ⟨-, hrepeat⟩ := hown u hi
      obtain ⟨v, hv, hvrec, -⟩ := hrepeat s' hparams hrec
      rw [List.filter_cons_of_pos hon, runInstrs_cons_of_next _ hv]
      exact ih hrun ((exec_params hv).trans (hparams.trans hu.symm)) hvrec

/-- Settles O44: the projection, from the state itself. -/
theorem busRecordDependsOnItsOwnStepsOnly : Obligations.BusRecordDependsOnItsOwnStepsOnly :=
  fun _ _ _ _ h => runInstrs_filter_onBus h rfl rfl

end Sys2Proof.Machine
end

section
/-! SUPPORT and PROOF of 30_encoding.md section 4 and 60_exceptions.md section 2: the lines pending run in order. An operation
neither reads nor writes them (`exec_setPending`), so steps over bundles are the run of what they decode to
(`runSteps_bundles`). -/

namespace Sys2Proof.Machine

/-- A step on a bundle the ports give a meaning to runs it. -/
theorem step_bundle_onPorts {s : State} {b : Bundle} {rest : List Line} {i : Instr} (hp : s.pending = .bundle b :: rest)
    (h : decodeOnPorts s.params s.freq.clkInHz b = .instr i) : step s = exec i (s.setPending rest) := by
  rw [step_cons hp, runLine, runBundle, State.setPending_params, State.setPending_freq, h]

theorem step_undecodable {s : State} {b : Bundle} {rest : List Line} {e : DecodeError} (hp : s.pending = .bundle b :: rest)
    (h : decodeOnPorts s.params s.freq.clkInHz b = .error e) : step s = .refused (.undecodable e) := by
  rw [step_cons hp, runLine, runBundle, State.setPending_params, State.setPending_freq, h]

/-- Settles O39: the decoder on the ports decides what a bundle's step is. -/
theorem stepRunsTheDecodedInstruction : Obligations.StepRunsTheDecodedInstruction := by
  unfold Obligations.StepRunsTheDecodedInstruction
  exact ⟨fun _ _ _ _ hp => ⟨step_bundle hp, step_bundle_onPorts hp⟩, fun _ _ _ _ hp => step_undecodable hp,
    fun _ => step_nil⟩

/-! ### Runs of steps -/

theorem runSteps_succ_of_next {s t : State} (n : Nat) (h : step s = .next t) : runSteps (n + 1) s = runSteps n t := by
  simp only [runSteps, h]

theorem runSteps_succ_of_fault {s : State} {f : Fault} (n : Nat) (h : step s = .fault f) :
    runSteps (n + 1) s = .fault f := by
  simp only [runSteps, h]

theorem runSteps_succ_of_refused {s : State} {r : Refusal} (n : Nat) (h : step s = .refused r) :
    runSteps (n + 1) s = .refused r := by
  simp only [runSteps, h]

/-- A fault is terminal: more steps do not change it (60_exceptions.md rule R87). -/
theorem runSteps_fault_mono {n k : Nat} {s : State} {f : Fault} (h : runSteps n s = .fault f) (hle : n ≤ k) :
    runSteps k s = .fault f := by
  induction n generalizing k s with
  | zero => cases h
  | succ n ih =>
    obtain ⟨k, rfl⟩ : ∃ j, k = j + 1 := Nat.exists_eq_succ_of_ne_zero (by omega)
    cases hstep : step s with
    | next t =>
      rw [runSteps_succ_of_next n hstep] at h
      exact (runSteps_succ_of_next _ hstep).trans (ih h (by omega))
    | fault g =>
      rw [runSteps_succ_of_fault n hstep] at h
      exact (runSteps_succ_of_fault _ hstep).trans h
    | refused r =>
      rw [runSteps_succ_of_refused n hstep] at h
      cases h

theorem runInstrs_cons_of_fault {i : Instr} {s : State} {f : Fault} (is : List Instr) (h : exec i s = .fault f) :
    runInstrs (i :: is) s = .fault f := by
  simp only [runInstrs, h]

theorem runInstrs_append_of_next {pre : List Instr} {s u : State} (post : List Instr) (h : runInstrs pre s = .next u) :
    runInstrs (pre ++ post) s = runInstrs post u := by
  induction pre generalizing s with
  | nil =>
    cases h
    rfl
  | cons i pre ih =>
    obtain ⟨v, hi, hrun⟩ := runInstrs_cons_next h
    rw [List.cons_append, runInstrs_cons_of_next _ hi]
    exact ih hrun

/-- The lines of a program of operations (30_encoding.md rule R36). -/
def bundles (P : Params) (is : List Instr) : List Line := is.map fun i => .bundle (encode P i)

/-- The step on the bundle of a well-formed instruction. -/
theorem step_encode {s : State} {i : Instr} {rest : List Line} (hP : s.params.Valid) (hi : i.wellFormed s.params = true)
    (hp : s.pending = .bundle (encode s.params i) :: rest) : step s = exec i (s.setPending rest) :=
  step_bundle hp (decodeReadsBackEncode s.params i hP hi)

/-- Steps over the bundles of a program are the run of its instructions, the lines behind them pending throughout. -/
theorem runSteps_bundles {is : List Instr} {s : State} {rest : List Line} (hP : s.params.Valid)
    (his : ∀ i ∈ is, i.wellFormed s.params = true) (hp : s.pending = bundles s.params is ++ rest) :
    runSteps is.length s = runInstrs is (s.setPending rest) := by
  induction is generalizing s with
  | nil =>
    have hs : s.setPending rest = s := congrArg (s.setPending ·) hp.symm
    exact congrArg _ hs.symm
  | cons i is ih =>
    obtain ⟨hi, his⟩ := List.forall_mem_cons.mp his
    have hstep := step_encode hP hi hp
    rw [exec_setPending] at hstep
    have hexec := exec_setPending i rest s
    cases hout : exec i s with
    | next t =>
      rw [hout] at hstep hexec
      have ht : t.params = s.params := exec_params hout
      rw [List.length_cons, runSteps_succ_of_next _ hstep, runInstrs_cons_of_next is hexec]
      have hrest : (t.setPending (bundles s.params is ++ rest)).pending = bundles t.params is ++ rest := by
        rw [ht, State.setPending_pending]
      exact ih (ht ▸ hP) (ht ▸ his) hrest
    | fault f =>
      rw [hout] at hstep hexec
      exact (runSteps_succ_of_fault _ hstep).trans (runInstrs_cons_of_fault is hexec).symm
    | refused r => exact absurd hout (exec_ne_refused i s r)

/-- Settles O50: the steps are the run, and a run that faults at its last instruction is a fault from there on. -/
theorem stepsRunTheLinesInOrderUntilAFault : Obligations.StepsRunTheLinesInOrderUntilAFault := by
  unfold Obligations.StepsRunTheLinesInOrderUntilAFault
  refine ⟨fun is s rest => runSteps_bundles, fun pre i s u rest f k hP hwf hp hpre hi hk => ?_⟩
  have hrun : runInstrs (pre ++ [i]) (s.setPending rest) = .fault f :=
    (runInstrs_append_of_next [i] hpre).trans (runInstrs_cons_of_fault [] hi)
  refine runSteps_fault_mono ((runSteps_bundles hP hwf hp).trans hrun) ?_
  rw [List.length_append, List.length_singleton]
  exact hk

end Sys2Proof.Machine
end

section
/-! SUPPORT and PROOF of 70_reset_and_hazards.md section 3 (truncation, slowest clock) and of the period reading of 40_divfreq.md
rule R46. -/

namespace Sys2Proof.Machine

/-- A clock of `2^(k-1)` times `2f` has the ratio `2^(k-1)` exactly. -/
theorem selector_mul_two_pow {P : Params} {k reqHz : Nat} (hlo : 1 ≤ k) (hhi : k ≤ P.maxDivider + 1) (hf : reqHz ≠ 0) :
    selector P (reqHz * 2 ^ k) reqHz = k - 1 := by
  obtain ⟨j, rfl⟩ : ∃ j, k = j + 1 := Nat.exists_eq_succ_of_ne_zero (by omega)
  have hclk : reqHz * 2 ^ (j + 1) = 2 ^ j * (2 * reqHz) := by ring
  have hq : ratioQ P (reqHz * 2 ^ (j + 1)) reqHz = 2 ^ (P.s + j) := by
    rw [hclk, ratioQ_multiple P (2 ^ j) hf, ← pow_add, Nat.add_comm]
  rw [selector_of_ratioQ_eq_two_pow hq, Nat.min_eq_left (by omega), Nat.add_sub_cancel]

theorem outputHz_mul_two_pow {k : Nat} (reqHz : Nat) (hk : 1 ≤ k) : outputHz (reqHz * 2 ^ k) (k - 1) = reqHz := by
  rw [outputHz, Nat.sub_add_cancel hk]
  push_cast
  exact mul_div_cancel_right₀ _ (by positivity)

/-- Settles O56: the ratio is a power of two, met without remainder. -/
theorem powerOfTwoRequestsAreMetExactly : Obligations.PowerOfTwoRequestsAreMetExactly := by
  unfold Obligations.PowerOfTwoRequestsAreMetExactly
  intro s t k reqHz hlo hhi h
  obtain ⟨hf, hsel⟩ := exec_divsel_sel h
  have hk : t.sel.sel = k - 1 := hsel.trans (selector_mul_two_pow (P := s.params) hlo hhi hf)
  exact ⟨hk, hk ▸ outputHz_mul_two_pow reqHz hlo⟩

/-- Settles O57: a clamped request exceeds at `MAX_DIVIDER` (`exceeds_of_lt_kStar`), and where that exceeds every faster selector
does. -/
theorem callersCheckRulesOutTheClamp : Obligations.CallersCheckRulesOutTheClamp := by
  unfold Obligations.CallersCheckRulesOutTheClamp
  intro s t clkInHz reqHz h
  obtain ⟨hf, -⟩ := exec_divsel_sel h
  have hrange : t.sel.sel ≤ s.maxDivider := execDivsel_sel_le h
  refine ⟨fun hcheck hclamp => ?_, fun hslow => ⟨hrange, exceeds_of_le hrange hslow, fun m hm => exceeds_of_le hm hslow⟩⟩
  have hexc : Exceeds clkInHz s.maxDivider reqHz := exceeds_of_lt_kStar (P := s.params) hf hclamp
  exact Nat.not_lt.mpr hcheck hexc

/-- Settles O15: the reciprocal of `B / 2^(n+1)`. -/
theorem outputPeriodIsFactorInputPeriods : Obligations.OutputPeriodIsFactorInputPeriods := by
  unfold Obligations.OutputPeriodIsFactorInputPeriods
  intro s t n clkInHz _ h
  rw [exec_divfreq_outputHz h, outputHz, one_div_div, mul_one_div]

end Sys2Proof.Machine
end
